-- ==== Sys2Proof/Word.lean ====
section
/-! DEFINITION. The two word types of the hardware (spec/00_scope.md R12): every register and every command word is
32 bits wide, a byte is 8 bits. Bit 0 is the least significant bit (R15). -/

namespace Sys2Proof

/-- A u32: a register's value or a command word (R12). -/
abbrev Word := BitVec 32

/-- A u8: one byte of BLKBUF, of IN or of OUT (R12, R40). -/
abbrev Byte := BitVec 8

end Sys2Proof
end

