-- ==== Sys2Proof/Config.lean ====
section
/-! DEFINITION. The named parameters of spec/00_scope.md R7 to R14 (spec/93_implementation_defined.md U1: a model keeps
each literal as a named constant), the value an unlisted byte of the platform's memory reads as, and the free value of
BLKBUF after a reset. -/

namespace Sys2Proof

/-- BLOCK_SIZE = 2048 bytes (R7). UNVERIFIED: the literal is unaudited (log entry 10, unsafe only for claims about the
legacy container). -/
abbrev Config.blockSize : Nat := 2048

/-- WORDS_PER_BLOCK = BLOCK_SIZE / 4 = 512 (R7). -/
abbrev Config.wordsPerBlock : Nat := Config.blockSize / 4

/-- KEY_LEN = 24: divisor of step 1 and multiplier of step 2 of the transform (R8). UNVERIFIED (log entry 10). -/
abbrev Config.keyLen : Nat := 24

/-- IDX_MUL = 0x4BAD: multiplier of the block index, applied once (R8, R91, C1). UNVERIFIED (log entry 10). -/
abbrev Config.idxMul : Word := 0x4BAD#32

/-- CSUM_SEED = 0xEF3D4323 (R9). UNVERIFIED (log entry 10). -/
abbrev Config.csumSeed : Word := 0xEF3D4323#32

/-- MAGIC = 0x443D2D3F, stored big-endian (R10). UNVERIFIED (log entry 10). -/
abbrev Config.magic : Word := 0x443D2D3F#32

/-- HDR_LEN = 12: magic 4, FileKey 4, Checksum 4 (R10). UNVERIFIED (log entry 10). -/
abbrev Config.hdrLen : Nat := 12

/-- PAD_PATTERN: the ASCII codes of digit zero, lowercase letter x, digit zero (R11). PRESUMED: the spec takes the
codes from general knowledge, its passage G1 (log entry 11, unsafe if the codes were others). -/
abbrev Config.padPattern : List Byte := [0x30#8, 0x78#8, 0x30#8]

/-- PAD_PERIOD = 3 (R11). -/
abbrev Config.padPeriod : Nat := 3

/-- MAX_LEN = 0xFFFFF800: the largest input length the block accepts (R13). -/
abbrev Config.maxLen : Nat := 0xFFFFF800

/-- The number of offsets of IN and of OUT, and the bound on IN_SIZE and OUT_SIZE (R14, R40). -/
abbrev Config.spaceSize : Nat := 0x100000000

/-- The size in bytes of the register window REG (R40, R65). -/
abbrev Config.windowSize : Nat := 0x1000

/-- The offset in REG of the window onto BLKBUF (R46, R65). -/
abbrev Config.blkbufOffset : Nat := 0x800

/-- What a byte of IN or OUT that no list entry names reads as. DESIGN CHOICE: the spec leaves the contents of the
platform's memory to the platform (log entry 6, unsafe for a claim that rests on it). -/
abbrev Config.memUnlisted : Byte := 0x00#8

/-- The free value of BLKBUF after a reset (R32, U5: arbitrary bytes, no claim may depend on them): byte number j after
the n-th reset event. It has no body, so no proof can know a byte of it. DESIGN CHOICE (log entry 3, safe). -/
opaque Config.blkbufAtReset : Nat → Nat → Byte

end Sys2Proof
end

