-- ==== Sys2Proof/Machine/HostAction.lean ====
section
/-! DEFINITION. What the host and the platform can do to the block, as data: the transactions of the host-script form of
spec/30_encoding.md R72 and the one reset event of spec/70_reset_and_hazards.md R150. The machine's State holds the
actions still to come as a list, since the block has no program counter and fetches nothing (R29): its next command is
the next host write to CMD. -/

namespace Sys2Proof.Machine

/-- The seven named registers of the window (R65). -/
inductive RegName where
  | cmd | status | key | blkidx | csum | len | outlen
  deriving DecidableEq, Repr

/-- What stands at an offset of the window (R65): a register, a reserved word, or word k of BLKBUF. -/
inductive RegTarget where
  /-- A named register at 0x000 .. 0x018. -/
  | reg (r : RegName)
  /-- A reserved offset 0x01C .. 0x7FC: reads as 0, writes are ignored (R66). -/
  | reserved
  /-- BLKBUF word k at 0x800 + 4k (R46). -/
  | window (k : Nat)
  deriving DecidableEq, Repr

/-- One action from outside the block. The widths and offsets are what the host puts on its bus, so they can be
ill-formed; the machine then refuses the access by name (R51). DESIGN CHOICE: of the host's accesses to the memories it
owns, only the two that R72 writes down are actions, placing bytes in IN and reading bytes of OUT; the spec does not say
whether the host may also write OUT or read IN between commands, and no action does either (log entry 16, unsafe). -/
inductive HostAction where
  /-- The host writes the value to REG at the offset, with an access of width bytes (R51, R65, R72 wr and cmd). -/
  | write (width off : Nat) (value : Word)
  /-- The host reads REG at the offset, with an access of width bytes (R51, R65, R72 rd). -/
  | read (width off : Nat)
  /-- The host places bytes in the IN space from the offset on (R72 in[a..b), R152 (1)). -/
  | placeIn (off : Nat) (bytes : List Byte)
  /-- The host reads count bytes of the OUT space from the offset on (R72 out[a..b), R152 (6)). -/
  | fetchOut (off count : Nat)
  /-- The platform drives the reset input (R150). -/
  | reset
  deriving DecidableEq, Repr

/-- What a host read answers. -/
inductive Reply where
  /-- The word a read of REG returns (R65, R66). -/
  | word (v : Word)
  /-- The bytes a read of OUT returns (R72). -/
  | bytes (bs : List Byte)
  deriving DecidableEq, Repr

end Sys2Proof.Machine
end

