-- ==== Sys2Proof/Syntax.lean ====
section
/-! DEFINITION. The instructions of the hardware: the seven commands of spec/30_encoding.md R62, one constructor per row
of spec/opcode_table.json. No command carries an operand: every operand is an implicit register (R61). -/

namespace Sys2Proof

/-- The seven commands a host can write to CMD (R62). -/
inductive Instr where
  /-- CSUM.INIT, command word 0x00000001 (R82). -/
  | csumInit
  /-- CSUM.UPD, command word 0x00000002 (R83). -/
  | csumUpd
  /-- BLK.XFORM, command word 0x00000010 (R94). -/
  | blkXform
  /-- BLK.LOAD, command word 0x00000020 (R108). -/
  | blkLoad
  /-- BLK.STORE, command word 0x00000021 (R109). -/
  | blkStore
  /-- HDR.WRITE, command word 0x00000022 (R110). -/
  | hdrWrite
  /-- ENCODE, command word 0x0000002F (R112). -/
  | encode
  deriving DecidableEq, Repr

end Sys2Proof
end

