-- ==== Sys2Proof/Decode.lean ====
section
/-! DEFINITION. The decoder and the encoder of command words (spec/30_encoding.md R60 to R64) and the decoder of window
offsets (R65). -/

namespace Sys2Proof

/-- Why a word is an illegal command (R63). Both reasons raise IllegalCommand. -/
inductive DecodeError where
  /-- The RSV field, bits 31:8, is not zero. -/
  | reservedNotZero
  /-- RSV is zero and OP is not one of the seven opcodes. -/
  | unassignedOpcode
  deriving DecidableEq, Repr

/-- OP, bits 7:0 of the command word (R60). -/
def opField (w : Word) : BitVec 8 := w.extractLsb' 0 8

/-- RSV, bits 31:8 of the command word (R60). -/
def rsvField (w : Word) : BitVec 24 := w.extractLsb' 8 24

/-- The command that OP selects (R62). -/
def commandOfOp (op : BitVec 8) : Except DecodeError Instr :=
  if op = 0x01#8 then .ok .csumInit
  else if op = 0x02#8 then .ok .csumUpd
  else if op = 0x10#8 then .ok .blkXform
  else if op = 0x20#8 then .ok .blkLoad
  else if op = 0x21#8 then .ok .blkStore
  else if op = 0x22#8 then .ok .hdrWrite
  else if op = 0x2F#8 then .ok .encode
  else .error .unassignedOpcode

/-- The command a 32-bit word encodes, or why it encodes none (R60, R62, R63). -/
def decode (w : Word) : Except DecodeError Instr :=
  if rsvField w = 0#24 then commandOfOp (opField w) else .error .reservedNotZero

/-- The opcode of a command (R62). -/
def opcode (i : Instr) : BitVec 8 :=
  match i with
  | .csumInit => 0x01#8
  | .csumUpd => 0x02#8
  | .blkXform => 0x10#8
  | .blkLoad => 0x20#8
  | .blkStore => 0x21#8
  | .hdrWrite => 0x22#8
  | .encode => 0x2F#8

/-- The command word: RSV zero above OP (R60, R62). -/
def encode (i : Instr) : Word := 0#24 ++ opcode i

/-- The command word whose low nbits bits are those of w, the bits above nbits zero (the host's numbering: bit 0 is
the least significant bit of the one 32-bit word, R15 and R60). -/
def tableWord (nbits w : Nat) : Word := BitVec.ofNat 32 (w % 2 ^ nbits)

/-- The command the decoder reads from an opcode-table word. -/
def decodeTableWord (nbits w : Nat) : Option Instr :=
  match decode (tableWord nbits w) with
  | .ok i => some i
  | .error _ => none

namespace Machine

/-- What an access of the given width at the given window offset reaches (R65), or none where the access has no meaning:
another width, another alignment, or outside the window (R51). -/
def regAt (width off : Nat) : Option RegTarget :=
  if width ≠ 4 ∨ off % 4 ≠ 0 ∨ Config.windowSize ≤ off then none
  else if off = 0x000 then some (.reg .cmd)
  else if off = 0x004 then some (.reg .status)
  else if off = 0x008 then some (.reg .key)
  else if off = 0x00C then some (.reg .blkidx)
  else if off = 0x010 then some (.reg .csum)
  else if off = 0x014 then some (.reg .len)
  else if off = 0x018 then some (.reg .outlen)
  else if off < Config.blkbufOffset then some .reserved
  else some (.window ((off - Config.blkbufOffset) / 4))

/-- The offset of a named register in the window (R65). -/
def regOffset (r : RegName) : Nat :=
  match r with
  | .cmd => 0x000
  | .status => 0x004
  | .key => 0x008
  | .blkidx => 0x00C
  | .csum => 0x010
  | .len => 0x014
  | .outlen => 0x018

end Machine

end Sys2Proof
end

