-- ==== Sys2Proof/Machine/State.lean ====
section
/-! DEFINITION. The state of one instance of the block as plain data (spec/10_state.md R20 to R28), the platform's two
memories and their sizes (spec/20_memory.md R40, R44), the host actions still to come, and the state right after
reset (R32). -/

namespace Sys2Proof.Machine

/-- A byte memory: (address, byte) pairs, addresses strictly rising, no pair equal to what an unlisted address reads
as (Memory.wf). -/
abbrev Memory := List Host.Cell

/-- The one canonical form of a memory. -/
abbrev Memory.wf (m : Memory) : Prop :=
  m.Pairwise (fun c d => c.1 < d.1) ∧ ∀ c ∈ m, c.2 ≠ Config.memUnlisted

/-- The contents of the block buffer: exactly BLOCK_SIZE bytes (R25). -/
abbrev Block := Vector Byte Config.blockSize

/-- The errors a command can end with (spec/60_exceptions.md R130). Each is a NEXT state with its code in
STATUS.RESULT; none stops the machine. -/
inductive CmdError where
  /-- Code 1 (R131): LEN not valid, or BLKIDX names no block. -/
  | invalidInput
  /-- Code 2 (R132): BLOCK_SIZE not a multiple of 4; unreachable at 2048. -/
  | malformedBlock
  /-- Code 3 (R133): a CMD write that encodes no command. -/
  | illegalCommand
  deriving DecidableEq, Repr

/-- The machine has NO fault: every error of the spec is a result code after which the block is ready for the next
command (R135, R136), so no constructor is raised by anything. -/
inductive Fault where
  deriving DecidableEq, Repr

/-- Why a step has no next state. -/
inductive Refusal where
  /-- An instruction that has no meaning in the model yet. Raised by no arm: every command has its meaning. Safe. -/
  | notModelled (mnemonic : String)
  /-- Raised by a host access to REG of another width than 32 bits, not at a multiple of 4, or outside the window
  (R51, U8: the spec gives it no meaning and has the model refuse it). Safe. -/
  | badHostAccess
  /-- Raised by BLK.LOAD, ENCODE and the host's placing of bytes when they would touch IN at or past IN_SIZE (R44, U9:
  no meaning, a model refuses it). Safe. -/
  | inBeyondPlatform
  /-- Raised by BLK.STORE, HDR.WRITE, ENCODE and the host's reading of OUT when they would touch OUT at or past
  OUT_SIZE (R44, U9: no meaning, a model refuses it). Safe. -/
  | outBeyondPlatform
  deriving DecidableEq, Repr

/-- The state of the machine. -/
structure State where
  /-- KEY: the FileKey (R21). -/
  key : Word
  /-- BLKIDX: the block index (R22). -/
  blkidx : Word
  /-- CSUM: the Checksum accumulator (R23). -/
  csum : Word
  /-- LEN: the input length in bytes (R24). -/
  len : Word
  /-- BLKBUF: the block buffer (R25). -/
  blkbuf : Block
  /-- STATUS.RESULT, bits 3:0 of STATUS (R27). Bits 31:4 have no storage: they read as 0. -/
  result : BitVec 4
  /-- OUTLEN: the container length of the last ENCODE (R28). -/
  outlen : Word
  /-- The platform's IN memory (R40 (b)). -/
  inMem : Memory
  /-- The platform's OUT memory (R40 (c)). -/
  outMem : Memory
  /-- IN_SIZE: how many bytes of IN are backed by memory (R14, R44). No step changes it. -/
  inSize : Nat
  /-- OUT_SIZE: how many bytes of OUT are backed by memory (R14, R44). No step changes it. -/
  outSize : Nat
  /-- The model's own: the host actions still to come, the next one first (R56; log entry 1). -/
  pending : List HostAction
  /-- The model's own: what the host's reads have returned, the oldest first (log entry 8). -/
  replies : List Reply
  /-- The model's own: how many reset events there have been; only the free value of BLKBUF after a reset depends on
  it (log entry 3). -/
  resets : Nat
  deriving DecidableEq, Repr

/-- A step's outcome. -/
abbrev Outcome := Host.Outcome State Fault Refusal

/-- BLKBUF after the n-th reset event: BLOCK_SIZE free bytes (R32, U5; log entry 3). -/
def blkbufAfterReset (n : Nat) : Block :=
  ⟨⟨(List.range Config.blockSize).map (Config.blkbufAtReset n)⟩, by simp⟩

/-- The machine right after reset (R32, R150): the table's values; the model's own fields and the platform's sizes and
memories at the values log entries 3 to 6 name. -/
def State.reset : State where
  key := 0#32
  blkidx := 0#32
  csum := Config.csumSeed
  len := 0#32
  blkbuf := blkbufAfterReset 0
  result := 0#4
  outlen := 0#32
  inMem := []
  outMem := []
  inSize := Config.spaceSize
  outSize := Config.spaceSize
  pending := []
  replies := []
  resets := 0

end Sys2Proof.Machine
end

