-- ==== Sys2Proof/Machine/Flags.lean ====
section
/-! DEFINITION. The one flag of the block, STATUS.RESULT (spec/10_state.md R27, spec/30_encoding.md R67): its codes and
the 32-bit register STATUS that shows it. -/

namespace Sys2Proof.Machine

/-- The code of OK (R67). -/
def okCode : BitVec 4 := 0#4

/-- The code an error writes to STATUS.RESULT (R67, R130). -/
def errorCode (e : CmdError) : BitVec 4 :=
  match e with
  | .invalidInput => 1#4
  | .malformedBlock => 2#4
  | .illegalCommand => 3#4

/-- STATUS: RESULT in bits 3:0, bits 31:4 zero (R27). -/
def statusWord (s : State) : Word := s.result.zeroExtend 32

end Sys2Proof.Machine
end

