-- ==== Sys2Proof/Machine/Ops.lean ====
section
/-! DEFINITION. The named operations every command uses: the byte primitives of spec/00_scope.md R16, reading and writing
the platform's memory (R17) and the block buffer, ending a command with OK (R19), and raising an error (R18,
spec/60_exceptions.md R135), which is this block's one form of taking an exception. -/

namespace Sys2Proof.Machine

/-! ## Byte primitives (R16) -/

/-- byte_k(v) = v[8k+7:8k] (R16). -/
def byteOf (v : Word) (k : Nat) : Byte := v.extractLsb' (8 * k) 8

/-- le32(b0, b1, b2, b3): b0 is the least significant byte (R16). -/
def le32 (b0 b1 b2 b3 : Byte) : Word := b3 ++ b2 ++ b1 ++ b0

/-- The four bytes of a word, least significant first (R47: FileKey and Checksum). -/
def leBytes (v : Word) : List Byte := [byteOf v 0, byteOf v 1, byteOf v 2, byteOf v 3]

/-- The four bytes of a word, most significant first (R47: Magic). -/
def beBytes (v : Word) : List Byte := [byteOf v 3, byteOf v 2, byteOf v 1, byteOf v 0]

/-! ## The platform's memory (R17, R40) -/

/-- The byte at an address (MemRead, R17). -/
def memRead (m : Memory) (x : Nat) : Byte :=
  match m with
  | [] => Config.memUnlisted
  | (a, b) :: r => if x = a then b else memRead r x

/-- A byte put before a memory all of whose addresses are larger; the canonical form lists no byte that an unlisted
address reads as. -/
def memCons (x : Nat) (v : Byte) (m : Memory) : Memory :=
  if v = Config.memUnlisted then m else (x, v) :: m

/-- A byte written at an address (MemWrite, R17), keeping the canonical form. -/
def memWrite (m : Memory) (x : Nat) (v : Byte) : Memory :=
  match m with
  | [] => memCons x v []
  | (a, b) :: r =>
    if x < a then memCons x v ((a, b) :: r)
    else if x = a then memCons x v r
    else (a, b) :: memWrite r x v

/-- Bytes written at consecutive addresses from x on. The order of the byte writes of one command is not observable
(R54, U12; log entry 13): the last address is written first. -/
def memWriteBytes (m : Memory) (x : Nat) (bs : List Byte) : Memory :=
  match bs with
  | [] => m
  | b :: r => memWrite (memWriteBytes m (x + 1) r) x b

/-- The n bytes at consecutive addresses from x on. -/
def memReadBytes (m : Memory) (x : Nat) (n : Nat) : List Byte :=
  match n with
  | 0 => []
  | n + 1 => memRead m x :: memReadBytes m (x + 1) n

/-! ## The block buffer (R17, R25, R46) -/

/-- BLKBUF[j] (R17); an index past the buffer, which nothing uses, gives 0. -/
def blkByte (B : Block) (j : Nat) : Byte := B.toList.getD j 0#8

/-- Window word k: le32 of BLKBUF[4k .. 4k+4) (R46), which is also checksum word W(k) (R45, R80). -/
def blkWord (B : Block) (k : Nat) : Word :=
  le32 (blkByte B (4 * k)) (blkByte B (4 * k + 1)) (blkByte B (4 * k + 2)) (blkByte B (4 * k + 3))

/-- Word v written to window word k: BLKBUF[4k+m] <- byte_m(v) for m = 0 .. 3 (R46). -/
def blkSetWord (B : Block) (k : Nat) (v : Word) : Block :=
  (((B.setIfInBounds (4 * k) (byteOf v 0)).setIfInBounds (4 * k + 1) (byteOf v 1)).setIfInBounds (4 * k + 2)
    (byteOf v 2)).setIfInBounds (4 * k + 3) (byteOf v 3)

/-- The block whose byte j is f j, for j = 0 .. BLOCK_SIZE - 1. -/
def blockOf (f : Nat → Byte) : Block := ⟨⟨(List.range Config.blockSize).map f⟩, by simp⟩

/-! ## Ending a command -/

/-- A command that does not raise ends with STATUS.RESULT <- 0 (R19). -/
def finish (s : State) : State := { s with result := okCode }

/-- Error entry (R18, R135): STATUS.RESULT <- code, and nothing else. There is no handler, no saved state and no mode
change; ENCODE's one more write, OUTLEN <- 0, is in its own meaning (R113). There is no return (R136): the state raise
gives is the one the next command starts from. -/
def raise (e : CmdError) (s : State) : State := { s with result := errorCode e }

/-! ## The reset event (R150) -/

/-- The reset event puts every register at its reset value (R32) and does not touch IN or OUT; BLKBUF takes new free
bytes (log entry 3). -/
def resetBlock (s : State) : State :=
  { s with
    key := 0#32
    blkidx := 0#32
    csum := Config.csumSeed
    len := 0#32
    blkbuf := blkbufAfterReset (s.resets + 1)
    result := 0#4
    outlen := 0#32
    resets := s.resets + 1 }

/-! ## The host's side of a transaction -/

/-- A host read's answer, added to the replies. -/
def addReply (r : Reply) (s : State) : State := { s with replies := s.replies ++ [r] }

end Sys2Proof.Machine
end

