-- ==== Sys2Proof/Machine/Operands.lean ====
section
/-! DEFINITION. The implicit operands of the commands (spec/30_encoding.md R61): lengths, padding and the padded input
(spec/42_container_framer.md R105 to R107), and what of IN and OUT the platform must back (spec/20_memory.md R44). -/

namespace Sys2Proof.Machine

/-- NBLK(L) = (L + 2047) div 2048 (R105). -/
def nblk (L : Nat) : Nat := (L + (Config.blockSize - 1)) / Config.blockSize

/-- PADLEN(L) = 2048 * NBLK(L) (R105). -/
def padLen (L : Nat) : Nat := Config.blockSize * nblk L

/-- ValidLen(L): 1 <= L <= MAX_LEN (R107). -/
abbrev ValidLen (L : Nat) : Prop := 1 ≤ L ∧ L ≤ Config.maxLen

/-- Byte n of the endlessly repeated filler pattern (R106, R11). -/
def padByte (n : Nat) : Byte := Config.padPattern.getD (n % Config.padPeriod) 0#8

/-- PaddedIn(p) of an input of length L (R106). -/
def paddedIn (m : Memory) (L p : Nat) : Byte := if p < L then memRead m p else padByte (p - L)

/-- Block(b) of the padded input (R106). -/
def paddedBlock (m : Memory) (L b : Nat) : Block := blockOf fun j => paddedIn m L (Config.blockSize * b + j)

/-- The OUT offset of payload block b: 12 + 2048 b (R49, R68, R109). -/
def payloadOffset (b : Nat) : Nat := Config.hdrLen + Config.blockSize * b

/-- One past the last IN offset that loading block b of an input of length L reads (R41, R106). -/
def loadEnd (L b : Nat) : Nat := min L (Config.blockSize * (b + 1))

/-- LEN as a number (R24). -/
def lenOf (s : State) : Nat := s.len.toNat

/-- BLKIDX as a number (R22). -/
def idxOf (s : State) : Nat := s.blkidx.toNat

/-- The tests of BLK.LOAD and BLK.STORE that raise InvalidInput (R108, R109, R131): LEN is not valid, or BLKIDX names
no block of the padded input. -/
abbrev NamesNoBlock (s : State) : Prop := ¬ ValidLen (lenOf s) ∨ nblk (lenOf s) ≤ idxOf s

end Sys2Proof.Machine
end

