-- ==== Sys2Proof/Machine/BlockTransform.lean ====
section
/-! DEFINITION. The block transform (spec/41_block_transform.md): the function Transform and the command BLK.XFORM. -/

namespace Sys2Proof.Machine

/-- Steps 1 to 6 of the transform for the byte b at position i, with the index product P (R90). -/
def xformByte (p key : Word) (i : Nat) (b : Byte) : Byte :=
  let g := i / Config.keyLen
  let o := i - Config.keyLen * g
  let s : Word := BitVec.ofNat 32 i * BitVec.ofNat 32 i + p
  let t := s >>> o
  let r := (t ^^^ key) ^^^ b.zeroExtend 32
  r.extractLsb' 0 8

/-- The bytes from position i on, each transformed (R90, R98). -/
def xformBytes (p key : Word) (i : Nat) (bs : List Byte) : List Byte :=
  match bs with
  | [] => []
  | b :: r => xformByte p key i b :: xformBytes p key (i + 1) r

/-- The transform keeps the length (R90). -/
theorem xformBytes_length (p key : Word) (i : Nat) (bs : List Byte) :
    (xformBytes p key i bs).length = bs.length := by
  induction bs generalizing i with
  | nil => rfl
  | cons b r ih => simp [xformBytes, ih]

/-- Transform(B, idx, key) (R90), the index product computed once per block (R91). -/
def transform (B : Block) (idx key : Word) : Block :=
  ⟨⟨xformBytes (Config.idxMul * idx) key 0 B.toList⟩, by simp [xformBytes_length]⟩

/-- BLK.XFORM (R94): BLKBUF <- Transform(BLKBUF, BLKIDX, KEY). -/
def execBlkXform (s : State) : Outcome :=
  .next (finish { s with blkbuf := transform s.blkbuf s.blkidx s.key })

end Sys2Proof.Machine
end

