-- ==== Sys2Proof/Machine/Checksum.lean ====
section
/-! DEFINITION. The checksum family (spec/40_checksum.md): the function Fold and the commands CSUM.INIT and CSUM.UPD. -/

namespace Sys2Proof.Machine

/-- Fold over a byte sequence, four bytes a word, little-endian, in order (R80). A remainder of fewer than four bytes,
which the commands never reach (R132), is not folded. -/
def foldBytes (acc : Word) (bs : List Byte) : Word :=
  match bs with
  | b0 :: b1 :: b2 :: b3 :: r => foldBytes (acc ^^^ le32 b0 b1 b2 b3) r
  | _ => acc

/-- Fold(acc, B) of a block (R80). -/
def fold (acc : Word) (B : Block) : Word := foldBytes acc B.toList

/-- CSUM.INIT (R82): CSUM <- CSUM_SEED. -/
def execCsumInit (s : State) : Outcome := .next (finish { s with csum := Config.csumSeed })

/-- CSUM.UPD (R83): CSUM <- Fold(CSUM, BLKBUF). The MalformedBlock test is kept as the spec writes it (R132) and is
false at BLOCK_SIZE = 2048. -/
def execCsumUpd (s : State) : Outcome :=
  if Config.blockSize % 4 ≠ 0 then .next (raise .malformedBlock s)
  else .next (finish { s with csum := fold s.csum s.blkbuf })

end Sys2Proof.Machine
end

