-- ==== Sys2Proof/Machine/ContainerFramer.lean ====
section
/-! DEFINITION. The container framer (spec/42_container_framer.md): BLK.LOAD, BLK.STORE, HDR.WRITE and ENCODE. A command
that would touch IN or OUT beyond what the platform backs is refused by name (spec/20_memory.md R44), after the tests
that raise (log entry 7). -/

namespace Sys2Proof.Machine

/-- BLK.LOAD (R108). -/
def execBlkLoad (s : State) : Outcome :=
  if NamesNoBlock s then .next (raise .invalidInput s)
  else if s.inSize < loadEnd (lenOf s) (idxOf s) then .refused .inBeyondPlatform
  else .next (finish { s with blkbuf := paddedBlock s.inMem (lenOf s) (idxOf s) })

/-- The bytes of a block written as payload block b of OUT (R109). -/
def storeBlock (m : Memory) (b : Nat) (B : Block) : Memory := memWriteBytes m (payloadOffset b) B.toList

/-- BLK.STORE (R109). -/
def execBlkStore (s : State) : Outcome :=
  if NamesNoBlock s then .next (raise .invalidInput s)
  else if s.outSize < payloadOffset (idxOf s + 1) then .refused .outBeyondPlatform
  else .next (finish { s with outMem := storeBlock s.outMem (idxOf s) s.blkbuf })

/-- The twelve header bytes: Magic big-endian, FileKey and Checksum little-endian (R47, R68, R110). -/
def headerBytes (key csum : Word) : List Byte := beBytes Config.magic ++ leBytes key ++ leBytes csum

/-- The header written to OUT[0 .. 12) (R110). -/
def storeHeader (m : Memory) (key csum : Word) : Memory := memWriteBytes m 0 (headerBytes key csum)

/-- HDR.WRITE (R110). It never looks at LEN. -/
def execHdrWrite (s : State) : Outcome :=
  if s.outSize < Config.hdrLen then .refused .outBeyondPlatform
  else .next (finish { s with outMem := storeHeader s.outMem s.key s.csum })

/-- T_b: payload block b of the container of an input of length L (R111). -/
def payloadBlock (m : Memory) (L : Nat) (key : Word) (b : Nat) : Block :=
  transform (paddedBlock m L b) (BitVec.ofNat 32 b) key

/-- acc_n: the accumulator after the blocks 0 .. n-1 (R111). -/
def encodeAcc (m : Memory) (L : Nat) (key : Word) (n : Nat) : Word :=
  match n with
  | 0 => Config.csumSeed
  | n + 1 => fold (encodeAcc m L key n) (payloadBlock m L key n)

/-- OUT after the payload blocks 0 .. n-1 are written, in index order (R112). -/
def encodePayload (m : Memory) (L : Nat) (key : Word) (out : Memory) (n : Nat) : Memory :=
  match n with
  | 0 => out
  | n + 1 => storeBlock (encodePayload m L key out n) n (payloadBlock m L key n)

/-- What a successful ENCODE leaves (R112), for N = NBLK(LEN). -/
def encodeResult (s : State) (n : Nat) : State :=
  { s with
    outMem := storeHeader (encodePayload s.inMem (lenOf s) s.key s.outMem n) s.key (encodeAcc s.inMem (lenOf s) s.key n)
    csum := encodeAcc s.inMem (lenOf s) s.key n
    blkidx := BitVec.ofNat 32 (n - 1)
    blkbuf := payloadBlock s.inMem (lenOf s) s.key (n - 1)
    outlen := BitVec.ofNat 32 (Config.hdrLen + Config.blockSize * n) }

/-- ENCODE (R112, R113). A raise also writes OUTLEN <- 0. -/
def execEncode (s : State) : Outcome :=
  if ¬ ValidLen (lenOf s) then .next (raise .invalidInput { s with outlen := 0#32 })
  else if Config.blockSize % 4 ≠ 0 then .next (raise .malformedBlock { s with outlen := 0#32 })
  else if s.inSize < lenOf s then .refused .inBeyondPlatform
  else if s.outSize < Config.hdrLen + padLen (lenOf s) then .refused .outBeyondPlatform
  else .next (finish (encodeResult s (nblk (lenOf s))))

end Sys2Proof.Machine
end

