-- ==== Sys2Proof/Machine/Dispatch.lean ====
section
/-! DEFINITION. The meaning of each command, one arm per constructor of Instr. -/

namespace Sys2Proof.Machine

/-- What a command does (spec/30_encoding.md R62). -/
def exec (i : Instr) (s : State) : Host.Outcome State Fault Refusal :=
  match i with
  -- checksum family (spec/40_checksum.md)
  | .csumInit => Sys2Proof.Machine.execCsumInit s
  | .csumUpd => Sys2Proof.Machine.execCsumUpd s
  -- block transform (spec/41_block_transform.md)
  | .blkXform => Sys2Proof.Machine.execBlkXform s
  -- container framer (spec/42_container_framer.md)
  | .blkLoad => Sys2Proof.Machine.execBlkLoad s
  | .blkStore => Sys2Proof.Machine.execBlkStore s
  | .hdrWrite => Sys2Proof.Machine.execHdrWrite s
  | .encode => Sys2Proof.Machine.execEncode s

end Sys2Proof.Machine
end

