-- ==== Sys2Proof/Machine/HostPort.lean ====
section
/-! DEFINITION. The host's side of the block: the register window (spec/30_encoding.md R65, R66), issuing a command by a
write to CMD (spec/10_state.md R26), placing input bytes and reading container bytes (R72), and the reset event. -/

namespace Sys2Proof.Machine

/-- A host write of word w to CMD executes the command w encodes, whole (R26, R52); a word that encodes none raises
IllegalCommand (R63, R133), decided by the word alone (R134). -/
def issueCommand (w : Word) (s : State) : Outcome :=
  match decode w with
  | .ok i => exec i s
  | .error _ => .next (raise .illegalCommand s)

/-- A host write of v to what stands at a window offset (R65, R66). -/
def hostWrite (t : RegTarget) (v : Word) (s : State) : Outcome :=
  match t with
  | .reg .cmd => issueCommand v s
  | .reg .status => .next s
  | .reg .key => .next { s with key := v }
  | .reg .blkidx => .next { s with blkidx := v }
  | .reg .csum => .next { s with csum := v }
  | .reg .len => .next { s with len := v }
  | .reg .outlen => .next s
  | .reserved => .next s
  | .window k => .next { s with blkbuf := blkSetWord s.blkbuf k v }

/-- What a host read of a window offset returns (R65, R66). -/
def hostRead (t : RegTarget) (s : State) : Word :=
  match t with
  | .reg .cmd => 0#32
  | .reg .status => statusWord s
  | .reg .key => s.key
  | .reg .blkidx => s.blkidx
  | .reg .csum => s.csum
  | .reg .len => s.len
  | .reg .outlen => s.outlen
  | .reserved => 0#32
  | .window k => blkWord s.blkbuf k

/-- One host action, whole (R52). A register access that has no meaning is refused (R51), as is a range of IN or OUT
that the platform does not back (R44). -/
def hostStep (a : HostAction) (s : State) : Outcome :=
  match a with
  | .write width off v =>
    match regAt width off with
    | some t => hostWrite t v s
    | none => .refused .badHostAccess
  | .read width off =>
    match regAt width off with
    | some t => .next (addReply (.word (hostRead t s)) s)
    | none => .refused .badHostAccess
  | .placeIn off bytes =>
    if s.inSize < off + bytes.length then .refused .inBeyondPlatform
    else .next { s with inMem := memWriteBytes s.inMem off bytes }
  | .fetchOut off count =>
    if s.outSize < off + count then .refused .outBeyondPlatform
    else .next (addReply (.bytes (memReadBytes s.outMem off count)) s)
  | .reset => .next (resetBlock s)

/-- The machine takes its next host action; with none pending it waits, unchanged (R150: after reset the block waits for
the first host access; R56 orders the actions; log entry 1). -/
def takeAction (s : State) : Outcome :=
  match s.pending with
  | [] => .next s
  | a :: rest => hostStep a { s with pending := rest }

/-- The next host action becomes a write of w to CMD (for the host's check of one opcode-table word; log entry 2). -/
def placeCommand (w : Word) (s : State) : State := { s with pending := .write 4 0x000 w :: s.pending }

end Sys2Proof.Machine
end

