-- ==== Sys2Proof/Machine/Step.lean ====
section
/-! DEFINITION. The step of the machine: its next host action (spec/INDEX.md, Where to start: on a host write to CMD
decode and apply the command's rule, on any other host access apply R65 and R66). -/

namespace Sys2Proof.Machine

/-- One step: the next pending host action, or waiting where there is none. -/
def step (s : State) : Host.Outcome State Fault Refusal := takeAction s

/-- s with the opcode-table word as the value of the next host write to CMD, so that the very next step runs it. The
block fetches nothing (R29): a command arrives as one host write (log entry 2). -/
def State.withFetchWord (s : State) (nbits w : Nat) : State := placeCommand (tableWord nbits w) s

end Sys2Proof.Machine
end

