-- ==== Sys2Proof/Machine/HostScript.lean ====
section
/-! DEFINITION. The host-script lines of spec/30_encoding.md R72 as host actions, and the primitive sequence that equals
ENCODE (spec/42_container_framer.md R114). -/

namespace Sys2Proof.Machine

/-- The line wr REG, value (R72). -/
def wr (r : RegName) (v : Word) : HostAction := .write 4 (regOffset r) v

/-- The line rd REG (R72). -/
def rd (r : RegName) : HostAction := .read 4 (regOffset r)

/-- The line wr BLKBUF[k], value (R72). -/
def wrBlkbuf (k : Nat) (v : Word) : HostAction := .write 4 (Config.blkbufOffset + 4 * k) v

/-- The line rd BLKBUF[k] (R72). -/
def rdBlkbuf (k : Nat) : HostAction := .read 4 (Config.blkbufOffset + 4 * k)

/-- The line cmd MNEMONIC: a host write of the command word to CMD (R72). -/
def cmd (i : Instr) : HostAction := wr .cmd (encode i)

/-- The lines of the loop body of R114 for block b. -/
def blockLines (b : Nat) : List HostAction :=
  [wr .blkidx (BitVec.ofNat 32 b), cmd .blkLoad, cmd .blkXform, cmd .csumUpd, cmd .blkStore]

/-- The lines of the loop of R114 for b = 0 .. n-1. -/
def loopLines (n : Nat) : List HostAction := (List.range n).flatMap blockLines

/-- The host program of R114 for n blocks. -/
def primitiveSequence (n : Nat) : List HostAction := cmd .csumInit :: (loopLines n ++ [cmd .hdrWrite])

end Sys2Proof.Machine
end

