-- ==== Sys2Proof/WellFormed.lean ====
section
/-! DEFINITION. Well-formedness. A command has no operand field (spec/30_encoding.md R61), so every command is
well-formed. A host action can be ill-formed: spec/20_memory.md R51 gives meaning only to 32-bit accesses at multiples
of 4 inside the window, and R40 gives IN and OUT 2^32 offsets. -/

namespace Sys2Proof

/-- Every command is well-formed: the format has no operand (R61), and its RSV field is zero by construction (R60). -/
abbrev Instr.wf (i : Instr) : Prop :=
  match i with
  | .csumInit | .csumUpd | .blkXform | .blkLoad | .blkStore | .hdrWrite | .encode => True

/-- A 32-bit access at a multiple of 4 within 0x000 .. 0xFFC (R51). -/
abbrev Machine.regAccessWf (width off : Nat) : Prop :=
  width = 4 ∧ off % 4 = 0 ∧ off ≤ 0xFFC

/-- The static form of a host action: the register accesses of R51, and IN and OUT ranges within 2^32 offsets (R40). -/
abbrev Machine.HostAction.wf (a : Machine.HostAction) : Prop :=
  match a with
  | .write width off _ => Machine.regAccessWf width off
  | .read width off => Machine.regAccessWf width off
  | .placeIn off bytes => off + bytes.length ≤ Config.spaceSize
  | .fetchOut off count => off + count ≤ Config.spaceSize
  | .reset => True

end Sys2Proof
end

