-- ==== Sys2Proof/Safety.lean ====
section
/-! DEFINITION. The words the claims are stated in: the machine's invariant, the host's duties that spec/20_memory.md R44
names, and safe runs. -/

namespace Sys2Proof.Machine

/-- A memory lists nothing at or past the size the platform backs (R44). -/
abbrev Memory.within (m : Memory) (size : Nat) : Prop := ∀ c ∈ m, c.1 < size

/-- OUTLEN is 0 or the length of a container: 12 plus 1 to 0x1FFFFF blocks (R28, R105, R115). -/
abbrev OutlenLegal (v : Word) : Prop :=
  v = 0#32 ∨ (∃ n, 1 ≤ n ∧ n ≤ 0x1FFFFF ∧ v.toNat = Config.hdrLen + Config.blockSize * n)

/-- The invariant of the machine: both memories in canonical form and within what the platform backs, the platform's
sizes at most 2^32 (R14), RESULT a code the block produces (R27: 4 .. 15 never), OUTLEN 0 or a container's length. -/
structure StateInv (s : State) : Prop where
  inWf : Memory.wf s.inMem
  outWf : Memory.wf s.outMem
  inWithin : Memory.within s.inMem s.inSize
  outWithin : Memory.within s.outMem s.outSize
  inSizeLe : s.inSize ≤ Config.spaceSize
  outSizeLe : s.outSize ≤ Config.spaceSize
  resultLe : s.result.toNat ≤ 3
  outlenLegal : OutlenLegal s.outlen

/-- The platform backs what ENCODE touches: LEN <= IN_SIZE and 12 + PADLEN(LEN) <= OUT_SIZE (R44, R152 (2), (3)). -/
abbrev EncodeBacked (s : State) : Prop :=
  lenOf s ≤ s.inSize ∧ Config.hdrLen + padLen (lenOf s) ≤ s.outSize

/-- The platform backs the whole of both spaces (R44: then no command is refused). -/
abbrev FullPlatform (s : State) : Prop := s.inSize = Config.spaceSize ∧ s.outSize = Config.spaceSize

/-- A safe run of k steps: none of them is refused or faults. -/
def SafeRun (k : Nat) (s : State) : Prop := ∃ t, core.run k s = .next t

end Sys2Proof.Machine
end

