-- ==== Sys2Proof/Certificates/Slice0/Obligations.lean ====
section
/-! DEFINITION. The statements for the provers, one Obligations.<Name> : Prop each, taken from the numbered rules of spec/.
First the words of the spec's closed forms (mask byte, padded byte, payload byte, checksum), written apart from the
model's own functions, so that a statement about a command compares two different texts. -/

open Sys2Proof Sys2Proof.Machine

/-! ## The spec's closed forms -/

/-- The mask byte M(i, idx, key) = key[7:0] xor s_i[o+7 : o], s_i = i*i + 0x4BAD*idx modulo 2^32, o = i mod 24 (R92). -/
def Sys2Proof.Claims.mask (i : Nat) (idx key : Word) : Byte :=
  key.extractLsb' 0 8 ^^^ (BitVec.ofNat 32 (i * i) + 0x4BAD#32 * idx).extractLsb' (i % 24) 8

/-- PaddedIn(p) of an input of length L held in m (R106). -/
def Sys2Proof.Claims.paddedByte (m : Memory) (L p : Nat) : Byte :=
  if p < L then memRead m p else [0x30#8, 0x78#8, 0x30#8].getD ((p - L) % 3) 0#8

/-- Payload byte p of the container (R71): padded byte p under the mask of its place in its block. -/
def Sys2Proof.Claims.payloadByte (m : Memory) (L : Nat) (key : Word) (p : Nat) : Byte :=
  Claims.paddedByte m L p ^^^ Claims.mask (p % 2048) (BitVec.ofNat 32 (p / 2048)) key

/-- The Checksum of the first n payload blocks (R80, R111): the seed folded with their little-endian words. -/
def Sys2Proof.Claims.checksum (m : Memory) (L : Nat) (key : Word) (n : Nat) : Word :=
  (List.range (512 * n)).foldl (fun acc k => acc ^^^
    (Claims.payloadByte m L key (4 * k + 3) ++ Claims.payloadByte m L key (4 * k + 2) ++
      Claims.payloadByte m L key (4 * k + 1) ++ Claims.payloadByte m L key (4 * k))) 0xEF3D4323#32

/-- The twelve header bytes (R47, R68): 44 3D 2D 3F, then KEY and the Checksum, least significant byte first. -/
def Sys2Proof.Claims.header (key csum : Word) : List Byte :=
  [0x44#8, 0x3D#8, 0x2D#8, 0x3F#8,
    key.extractLsb' 0 8, key.extractLsb' 8 8, key.extractLsb' 16 8, key.extractLsb' 24 8,
    csum.extractLsb' 0 8, csum.extractLsb' 8 8, csum.extractLsb' 16 8, csum.extractLsb' 24 8]

/-- The seven command words (R62). -/
def Sys2Proof.Claims.commandWords : List (Word × Instr) :=
  [(0x00000001#32, .csumInit), (0x00000002#32, .csumUpd), (0x00000010#32, .blkXform), (0x00000020#32, .blkLoad),
    (0x00000021#32, .blkStore), (0x00000022#32, .hdrWrite), (0x0000002F#32, .encode)]

/-- The two states agree on what the matrix of R34 says the command reads, and on the platform's sizes it meets. -/
def Sys2Proof.Claims.ReadsAgree (i : Instr) (s u : State) : Prop :=
  match i with
  | .csumInit => True
  | .csumUpd => u.csum = s.csum ∧ u.blkbuf = s.blkbuf
  | .blkXform => u.key = s.key ∧ u.blkidx = s.blkidx ∧ u.blkbuf = s.blkbuf
  | .blkLoad => u.blkidx = s.blkidx ∧ u.len = s.len ∧ u.inSize = s.inSize ∧
      ∀ p, p < lenOf s → memRead u.inMem p = memRead s.inMem p
  | .blkStore => u.blkidx = s.blkidx ∧ u.len = s.len ∧ u.blkbuf = s.blkbuf ∧ u.outSize = s.outSize
  | .hdrWrite => u.key = s.key ∧ u.csum = s.csum ∧ u.outSize = s.outSize
  | .encode => u.key = s.key ∧ u.len = s.len ∧ u.inSize = s.inSize ∧ u.outSize = s.outSize ∧
      ∀ p, p < lenOf s → memRead u.inMem p = memRead s.inMem p

/-- The OUT addresses a command can store to, computed as its meaning computes them: BLK.STORE from payloadOffset of
BLKIDX, HDR.WRITE the header, ENCODE header and payload (R41, R54). -/
def Sys2Proof.Claims.StoresTo (i : Instr) (s : State) (a : Nat) : Prop :=
  match i with
  | .blkStore => payloadOffset (idxOf s) ≤ a ∧ a < payloadOffset (idxOf s + 1)
  | .hdrWrite => a < 12
  | .encode => a < 12 + padLen (lenOf s)
  | .csumInit | .csumUpd | .blkXform | .blkLoad => False

/-! ## Encoding -/

/-- R62, R64: a decoder compares the 32-bit word with the seven words. A word decodes to a command exactly when the pair
is one of the seven, and is refused exactly when it is none of them. -/
def Obligations.DecodeComparesWithTheSevenWords : Prop :=
  (∀ (w : Word) (i : Instr), decode w = .ok i ↔ (w, i) ∈ Claims.commandWords) ∧
  ∀ w : Word, (∃ e, decode w = .error e) ↔ w ∉ Claims.commandWords.map Prod.fst

/-- The seven words of R62 written out, and the illegal words of V61 to V63 and P5. -/
def Obligations.SpecWordsDecode : Prop :=
  decode 0x00000001#32 = .ok .csumInit ∧ decode 0x00000002#32 = .ok .csumUpd ∧
  decode 0x00000010#32 = .ok .blkXform ∧ decode 0x00000020#32 = .ok .blkLoad ∧
  decode 0x00000021#32 = .ok .blkStore ∧ decode 0x00000022#32 = .ok .hdrWrite ∧
  decode 0x0000002F#32 = .ok .encode ∧
  decode 0x00000000#32 = .error .unassignedOpcode ∧ decode 0x00000023#32 = .error .unassignedOpcode ∧
  decode 0x00000101#32 = .error .reservedNotZero ∧ decode 0x8000002F#32 = .error .reservedNotZero

/-- Decode and encode agree for every command (R60, R62): no bit of a command word is dropped. -/
def Obligations.DecodeOfEncodeIsTheCommand : Prop :=
  ∀ i : Instr, i.wf → decode (encode i) = .ok i ∧ decodeTableWord 32 (encode i).toNat = some i

/-- A step runs the decoded command: the next host action is a write of w to CMD and w decodes to i, so the step is exec
of i after the action is taken off the list; with no action pending the step waits (log entry 1: the model's choice). -/
def Obligations.StepRunsTheDecodedCommand : Prop :=
  (∀ (s : State) (w : Word) (i : Instr) (rest : List HostAction),
    s.pending = .write 4 0x000 w :: rest → decode w = .ok i → i.wf →
    step s = exec i { s with pending := rest }) ∧
  ∀ s : State, s.pending = [] → step s = .next s

/-- R133, R63: a word written to CMD that is not one of the seven raises IllegalCommand and changes nothing but
STATUS.RESULT. -/
def Obligations.IllegalWordRaisesIllegalCommand : Prop :=
  ∀ (s : State) (w : Word) (rest : List HostAction),
    s.pending = .write 4 0x000 w :: rest → w ∉ Claims.commandWords.map Prod.fst →
    step s = .next { s with pending := rest, result := 3#4 }

/-! ## Checksum family -/

/-- R82: CSUM.INIT completes from every state; CSUM becomes 0xEF3D4323 and RESULT OK, nothing else changes. -/
def Obligations.CsumInitLoadsTheSeed : Prop :=
  decode 0x00000001#32 = .ok .csumInit ∧
  ∀ s : State, exec .csumInit s = .next { s with csum := 0xEF3D4323#32, result := 0#4 }

/-- R83, R80: CSUM.UPD completes from every state; CSUM becomes CSUM xor the 512 little-endian words of BLKBUF, RESULT OK,
nothing else changes; the block length is a multiple of 4, so MalformedBlock is not raised. -/
def Obligations.CsumUpdFoldsEveryWord : Prop :=
  decode 0x00000002#32 = .ok .csumUpd ∧ Config.blockSize % 4 = 0 ∧
  ∀ s : State, exec .csumUpd s = .next { s with
    csum := (List.range 512).foldl (fun acc k => acc ^^^
      (blkByte s.blkbuf (4 * k + 3) ++ blkByte s.blkbuf (4 * k + 2) ++ blkByte s.blkbuf (4 * k + 1) ++
        blkByte s.blkbuf (4 * k))) s.csum
    result := 0#4 }

/-- R81: folding the 512 words in any permuted order gives the same value; exchanging two different bytes of different
lanes gives another value. -/
def Obligations.FoldOrderIndependent : Prop :=
  (∀ (acc : Word) (B : Block) (order : List Nat), order.Perm (List.range 512) →
    order.foldl (fun a k => a ^^^ blkWord B k) acc = fold acc B) ∧
  ∀ (acc : Word) (B : Block) (j k : Nat), j < 2048 → k < 2048 → j % 4 ≠ k % 4 → blkByte B j ≠ blkByte B k →
    fold acc (blockOf fun n => if n = j then blkByte B k else if n = k then blkByte B j else blkByte B n) ≠ fold acc B

/-- R84: each byte lane of the accumulator is the xor of the bytes of B whose index is congruent to m modulo 4. -/
def Obligations.FoldIsLaneParity : Prop :=
  ∀ (acc : Word) (B : Block) (m : Nat), m < 4 →
    byteOf (fold acc B) m = (List.range 512).foldl (fun a k => a ^^^ blkByte B (4 * k + m)) (byteOf acc m)

/-- R85: folding the same block twice undoes the first fold; the xor of two folds is that of the lane parities; a block of
equal bytes changes nothing; flipping the same bits in two bytes of one lane is not detected. -/
def Obligations.FoldCancelsItself : Prop :=
  (∀ (acc : Word) (B : Block), fold (fold acc B) B = acc) ∧
  (∀ (acc : Word) (B C : Block) (m : Nat), m < 4 →
    byteOf (fold acc B ^^^ fold acc C) m =
      (List.range 512).foldl (fun a k => a ^^^ (blkByte B (4 * k + m) ^^^ blkByte C (4 * k + m))) 0#8) ∧
  (∀ (acc : Word) (b : Byte), fold acc (blockOf fun _ => b) = acc) ∧
  ∀ (acc : Word) (B : Block) (x : Byte) (j k : Nat), j < 2048 → k < 2048 → j ≠ k → j % 4 = k % 4 →
    fold acc (blockOf fun n => if n = j ∨ n = k then blkByte B n ^^^ x else blkByte B n) = fold acc B

/-- R83, R85: CSUM.UPD issued twice on the same BLKBUF restores CSUM; both complete. -/
def Obligations.CsumUpdTwiceRestoresCsum : Prop :=
  ∀ s : State, ∃ t, exec .csumUpd s = .next t ∧ exec .csumUpd t = .next { s with result := 0#4 }

/-! ## Block transform -/

/-- R94, R92: BLK.XFORM completes from every state; every byte of BLKBUF is xored with its mask byte, RESULT is OK, nothing
else changes. -/
def Obligations.XformXorsTheMask : Prop :=
  decode 0x00000010#32 = .ok .blkXform ∧
  ∀ s : State, ∃ t, exec .blkXform s = .next t ∧ t = { s with blkbuf := t.blkbuf, result := 0#4 } ∧
    ∀ i, i < 2048 → blkByte t.blkbuf i = blkByte s.blkbuf i ^^^ Claims.mask i s.blkidx s.key

/-- R93: with products and sums reduced modulo 2^n for any n of at least 31, or not reduced at all, the transform has the
same bytes; i*i stays below 2^22, and the product wraps for idx of at least 221699. -/
def Obligations.XformIsWidthIndependent : Prop :=
  (∀ (n : Nat) (B : Block) (idx key : Word) (i : Nat), 31 ≤ n → i < 2048 →
    blkByte (transform B idx key) i = blkByte B i ^^^ key.extractLsb' 0 8 ^^^
      BitVec.ofNat 8 (((i * i) % 2 ^ n + (0x4BAD * idx.toNat) % 2 ^ n) % 2 ^ n / 2 ^ (i % 24))) ∧
  (∀ (B : Block) (idx key : Word) (i : Nat), i < 2048 →
    blkByte (transform B idx key) i = blkByte B i ^^^ key.extractLsb' 0 8 ^^^
      BitVec.ofNat 8 ((i * i + 0x4BAD * idx.toNat) / 2 ^ (i % 24))) ∧
  (∀ i, i < 2048 → i * i ≤ 4190209 ∧ i * i < 2 ^ 22) ∧
  ∀ idx : Word, 2 ^ 32 ≤ 0x4BAD * idx.toNat ↔ 221699 ≤ idx.toNat

/-- R95: the transform is an involution, for every block, index and key, and as a command; with a key whose low byte
differs, or an index whose product differs in bits 30:0 (R97), the second application does not restore the block. -/
def Obligations.XformIsAnInvolution : Prop :=
  (∀ (B : Block) (idx key : Word), transform (transform B idx key) idx key = B) ∧
  (∀ s : State, ∃ t, exec .blkXform s = .next t ∧ exec .blkXform t = .next { s with result := 0#4 }) ∧
  (∀ (B : Block) (idx key other : Word), key.extractLsb' 0 8 ≠ other.extractLsb' 0 8 →
    transform (transform B idx key) idx other ≠ B) ∧
  ∀ (B : Block) (idx other key : Word), (0x4BAD#32 * idx).extractLsb' 0 31 ≠ (0x4BAD#32 * other).extractLsb' 0 31 →
    transform (transform B idx key) other key ≠ B

/-- R96: bits 31:8 of the key never reach the output. -/
def Obligations.XformUsesOnlyTheKeysLowByte : Prop :=
  ∀ (B : Block) (idx key : Word), transform B idx key = transform B idx ((key.extractLsb' 0 8).zeroExtend 32)

/-- R97: bit 31 of the index changes exactly bit 31 of the product and no output byte; idx to product is a bijection; two
indices give the same transform exactly when their products agree in bits 30:0. -/
def Obligations.XformIndexTwins : Prop :=
  (∀ (B : Block) (idx key : Word), transform B idx key = transform B (idx ^^^ 0x80000000#32) key) ∧
  (∀ idx : Word, 0x4BAD#32 * (idx ^^^ 0x80000000#32) = (0x4BAD#32 * idx) ^^^ 0x80000000#32) ∧
  (Function.Bijective fun idx : Word => 0x4BAD#32 * idx) ∧
  ∀ idx other : Word, (∀ (B : Block) (key : Word), transform B idx key = transform B other key) ↔
    (0x4BAD#32 * idx).extractLsb' 0 31 = (0x4BAD#32 * other).extractLsb' 0 31

/-- R98: byte i of the output is a function of byte i of the input, i, the index and the key's low byte alone. -/
def Obligations.XformBytesAreIndependent : Prop :=
  ∀ (B C : Block) (idx key other : Word) (i : Nat), i < 2048 → blkByte B i = blkByte C i →
    key.extractLsb' 0 8 = other.extractLsb' 0 8 →
    blkByte (transform B idx key) i = blkByte (transform C idx other) i

/-- R99: the checksum of a transformed block does not depend on the key, and so the Checksum of a container is the same for
every key. -/
def Obligations.ChecksumIgnoresTheKey : Prop :=
  (∀ (acc : Word) (B : Block) (idx key : Word), fold acc (transform B idx key) = fold acc (transform B idx 0#32)) ∧
  ∀ (s : State) (key : Word), ValidLen (lenOf s) → EncodeBacked s →
    ∃ t u, exec .encode s = .next t ∧ exec .encode { s with key := key } = .next u ∧ t.result = 0#4 ∧
      u.result = 0#4 ∧ u.csum = t.csum

/-! ## Container framer -/

/-- R105 (with R13): PADLEN(L) is the smallest multiple of 2048 at or above L; at most 2047 filler bytes, none exactly for
a multiple, all in the last block; the bounds for a valid length; MAX_LEN is the largest L with 12 + PADLEN(L) below
2^32. -/
def Obligations.PaddedLengthIsTheSmallestMultiple : Prop :=
  nblk 0 = 0 ∧
  (∀ L, nblk L = (L + 2047) / 2048 ∧ padLen L = 2048 * nblk L) ∧
  (∀ L, L ≤ padLen L ∧ padLen L - L ≤ 2047 ∧ (padLen L = L ↔ L % 2048 = 0)) ∧
  (∀ L m, m % 2048 = 0 → L ≤ m → padLen L ≤ m) ∧
  (∀ L p, L ≤ p → p < padLen L → p / 2048 = nblk L - 1) ∧
  (∀ L, 1 ≤ L → L ≤ 0xFFFFF800 → 1 ≤ nblk L ∧ nblk L ≤ 0x1FFFFF ∧ 12 + padLen L ≤ 0xFFFFF80C) ∧
  ∀ L, 12 + padLen L < 2 ^ 32 ↔ L ≤ 0xFFFFF800

/-- R108, R106: BLK.LOAD raises InvalidInput when LEN is not valid or BLKIDX names no block, with nothing else changed; it
completes otherwise, where IN is backed below what it reads (R44), and byte j of BLKBUF becomes padded byte
2048 BLKIDX + j, RESULT OK, nothing else changed; no offset of the block overflows 32 bits. -/
def Obligations.BlkLoadLoadsThePaddedBlock : Prop :=
  decode 0x00000020#32 = .ok .blkLoad ∧
  (∀ s : State, ¬ ValidLen (lenOf s) ∨ nblk (lenOf s) ≤ idxOf s →
    exec .blkLoad s = .next { s with result := 1#4 }) ∧
  (∀ s : State, ValidLen (lenOf s) → idxOf s < nblk (lenOf s) → 2048 * idxOf s + 2047 < 2 ^ 32) ∧
  ∀ s : State, ValidLen (lenOf s) → idxOf s < nblk (lenOf s) → min (lenOf s) (2048 * (idxOf s + 1)) ≤ s.inSize →
    ∃ t, exec .blkLoad s = .next t ∧ t = { s with blkbuf := t.blkbuf, result := 0#4 } ∧
      ∀ j, j < 2048 → blkByte t.blkbuf j = Claims.paddedByte s.inMem (lenOf s) (2048 * idxOf s + j)

/-- R109: BLK.STORE raises as BLK.LOAD does; it completes otherwise, where OUT is backed (R44), and OUT holds BLKBUF at
12 + 2048 BLKIDX and is unchanged elsewhere, RESULT OK, nothing else changed; the largest offset written is at most
0xFFFFF80B. -/
def Obligations.BlkStoreStoresThePayloadBlock : Prop :=
  decode 0x00000021#32 = .ok .blkStore ∧
  (∀ s : State, ¬ ValidLen (lenOf s) ∨ nblk (lenOf s) ≤ idxOf s →
    exec .blkStore s = .next { s with result := 1#4 }) ∧
  (∀ s : State, ValidLen (lenOf s) → idxOf s < nblk (lenOf s) → 12 + 2048 * (idxOf s + 1) ≤ 0xFFFFF80C) ∧
  ∀ s : State, Memory.wf s.outMem → ValidLen (lenOf s) → idxOf s < nblk (lenOf s) →
    12 + 2048 * (idxOf s + 1) ≤ s.outSize →
    ∃ t, exec .blkStore s = .next t ∧ t = { s with outMem := t.outMem, result := 0#4 } ∧
      ∀ a, memRead t.outMem a =
        if 12 + 2048 * idxOf s ≤ a ∧ a < 12 + 2048 * (idxOf s + 1) then
          blkByte s.blkbuf (a - (12 + 2048 * idxOf s))
        else memRead s.outMem a

/-- R110: HDR.WRITE completes, where OUT is backed (R44), whatever LEN is; OUT[0 .. 12) holds the header of KEY and CSUM,
OUT is unchanged elsewhere, RESULT OK, nothing else changed. -/
def Obligations.HdrWriteWritesTheHeader : Prop :=
  decode 0x00000022#32 = .ok .hdrWrite ∧
  ∀ s : State, Memory.wf s.outMem → 12 ≤ s.outSize →
    ∃ t, exec .hdrWrite s = .next t ∧ t = { s with outMem := t.outMem, result := 0#4 } ∧
      ∀ a, memRead t.outMem a =
        if a < 12 then (Claims.header s.key s.csum).getD a 0#8 else memRead s.outMem a

/-- R111, R112, R71: ENCODE completes for a valid LEN, where IN and OUT are backed (R44), and writes exactly the container:
header, payload bytes in order, the rest of OUT unchanged; CSUM is the final Checksum, BLKIDX is N - 1, BLKBUF the last
payload block, OUTLEN 12 + 2048 N; RESULT OK and nothing else changed. For any other LEN it raises InvalidInput with
OUTLEN 0 (R113). -/
def Obligations.EncodeWritesTheContainer : Prop :=
  decode 0x0000002F#32 = .ok .encode ∧ Config.blockSize % 4 = 0 ∧
  (∀ s : State, ¬ ValidLen (lenOf s) → exec .encode s = .next { s with outlen := 0#32, result := 1#4 }) ∧
  ∀ s : State, Memory.wf s.outMem → ValidLen (lenOf s) → lenOf s ≤ s.inSize → 12 + padLen (lenOf s) ≤ s.outSize →
    ∃ t, exec .encode s = .next t ∧
      t = { s with
        outMem := t.outMem
        csum := Claims.checksum s.inMem (lenOf s) s.key (nblk (lenOf s))
        blkidx := BitVec.ofNat 32 (nblk (lenOf s) - 1)
        blkbuf := t.blkbuf
        outlen := BitVec.ofNat 32 (12 + 2048 * nblk (lenOf s))
        result := 0#4 } ∧
      (∀ j, j < 2048 → blkByte t.blkbuf j =
        Claims.payloadByte s.inMem (lenOf s) s.key (2048 * (nblk (lenOf s) - 1) + j)) ∧
      ∀ a, memRead t.outMem a =
        if a < 12 then (Claims.header s.key t.csum).getD a 0#8
        else if a < 12 + padLen (lenOf s) then Claims.payloadByte s.inMem (lenOf s) s.key (a - 12)
        else memRead s.outMem a

/-- R113: a failing ENCODE writes OUTLEN <- 0 and RESULT <- InvalidInput and nothing else; MalformedBlock cannot be raised,
since the block length is a multiple of 4. -/
def Obligations.EncodeFailureWritesNothingElse : Prop :=
  Config.blockSize % 4 = 0 ∧
  ∀ s : State, (lenOf s = 0 ∨ 0xFFFFF800 < lenOf s) →
    exec .encode s = .next { s with outlen := 0#32, result := 1#4 }

/-- R115: after a successful ENCODE, OUTLEN is 12 + PADLEN(LEN); OUTLEN - 12 is a multiple of 2048 and at least 2048. -/
def Obligations.ContainerShape : Prop :=
  ∀ s t : State, exec .encode s = .next t → t.result = 0#4 →
    t.outlen.toNat = 12 + padLen (lenOf s) ∧ (t.outlen.toNat - 12) % 2048 = 0 ∧ 2048 ≤ t.outlen.toNat - 12

/-- R47, R48: after HDR.WRITE or a successful ENCODE, a little-endian view of OUT sees 0x3F2D3D44 at 0, KEY at 4 and CSUM at
8, and the first four bytes are 44 3D 2D 3F. -/
def Obligations.HeaderFieldByteOrders : Prop :=
  ∀ (i : Instr) (s t : State), i = .hdrWrite ∨ i = .encode → Memory.wf s.outMem → exec i s = .next t →
    t.result = 0#4 →
    (memReadBytes t.outMem 0 4 = [0x44#8, 0x3D#8, 0x2D#8, 0x3F#8]) ∧
    (∀ m, m < 4 → memRead t.outMem (4 + m) = byteOf s.key m ∧ memRead t.outMem (8 + m) = byteOf t.csum m) ∧
    le32 (memRead t.outMem 0) (memRead t.outMem 1) (memRead t.outMem 2) (memRead t.outMem 3) = 0x3F2D3D44#32 ∧
    le32 (memRead t.outMem 4) (memRead t.outMem 5) (memRead t.outMem 6) (memRead t.outMem 7) = s.key ∧
    le32 (memRead t.outMem 8) (memRead t.outMem 9) (memRead t.outMem 10) (memRead t.outMem 11) = t.csum

/-- R114: for a valid LEN on a platform that backs it, one ENCODE and the host's primitive sequence both complete and leave
the same state, but for OUTLEN, which the sequence does not write. The sequence runs from the pending list, which is the
model's own (log entry 1). -/
def Obligations.EncodeEqualsThePrimitiveSequence : Prop :=
  ∀ (s : State) (rest : List HostAction), ValidLen (lenOf s) → EncodeBacked s →
    ∃ t, exec .encode { s with pending := rest } = .next t ∧
      (core.run (5 * nblk (lenOf s) + 2)
        { s with pending := primitiveSequence (nblk (lenOf s)) ++ rest } : Outcome) =
        .next { t with outlen := s.outlen }

/-- R116: from the container alone, transforming payload block b again with index b and the key read from the header gives
block b of the padded input, folding the payload blocks from CSUM_SEED reproduces the Checksum field, and a host decodes
block b by putting it in BLKBUF and issuing BLK.XFORM with BLKIDX = b. -/
def Obligations.ContainerRoundTrip : Prop :=
  ∀ s t : State, Memory.wf s.outMem → exec .encode s = .next t → t.result = 0#4 →
    le32 (memRead t.outMem 4) (memRead t.outMem 5) (memRead t.outMem 6) (memRead t.outMem 7) = s.key ∧
    (∀ b, b < nblk (lenOf s) →
      transform (blockOf fun j => memRead t.outMem (12 + 2048 * b + j)) (BitVec.ofNat 32 b)
          (le32 (memRead t.outMem 4) (memRead t.outMem 5) (memRead t.outMem 6) (memRead t.outMem 7)) =
        blockOf fun j => Claims.paddedByte s.inMem (lenOf s) (2048 * b + j)) ∧
    (List.range (nblk (lenOf s))).foldl
        (fun acc b => fold acc (blockOf fun j => memRead t.outMem (12 + 2048 * b + j))) 0xEF3D4323#32 =
      le32 (memRead t.outMem 8) (memRead t.outMem 9) (memRead t.outMem 10) (memRead t.outMem 11) ∧
    ∀ (b : Nat) (u : State), b < nblk (lenOf s) →
      u.blkbuf = (blockOf fun j => memRead t.outMem (12 + 2048 * b + j)) → u.blkidx = BitVec.ofNat 32 b →
      u.key = s.key →
      exec .blkXform u = .next { u with
        blkbuf := blockOf fun j => Claims.paddedByte s.inMem (lenOf s) (2048 * b + j)
        result := 0#4 }

/-- R118: CSUM.INIT then HDR.WRITE writes the header-only container with the seed checksum and no payload, and ENCODE with
LEN = 0 raises InvalidInput. -/
def Obligations.HeaderOnlyContainer : Prop :=
  (∀ s : State, Memory.wf s.outMem → 12 ≤ s.outSize →
    ∃ t u, exec .csumInit s = .next t ∧ exec .hdrWrite t = .next u ∧ u.result = 0#4 ∧
      (∀ a, memRead u.outMem a =
        if a < 12 then
          [0x44#8, 0x3D#8, 0x2D#8, 0x3F#8, byteOf s.key 0, byteOf s.key 1, byteOf s.key 2, byteOf s.key 3,
            0x23#8, 0x43#8, 0x3D#8, 0xEF#8].getD a 0#8
        else memRead s.outMem a)) ∧
  ∀ s : State, s.len = 0#32 → exec .encode s = .next { s with outlen := 0#32, result := 1#4 }

/-- R119: the container and OUTLEN are a function of LEN, IN[0 .. LEN) and KEY alone: two ENCODEs from states that agree on
those end with the same result, the same OUTLEN and, on success, the same container, CSUM, BLKIDX and BLKBUF. -/
def Obligations.ContainerDependsOnlyOnInputAndKey : Prop :=
  ∀ s u t v : State, Memory.wf s.outMem → Memory.wf u.outMem → s.len = u.len → s.key = u.key →
    (∀ p, p < lenOf s → memRead s.inMem p = memRead u.inMem p) →
    exec .encode s = .next t → exec .encode u = .next v →
    t.result = v.result ∧ t.outlen = v.outlen ∧
    (t.result = 0#4 → t.csum = v.csum ∧ t.blkidx = v.blkidx ∧ t.blkbuf = v.blkbuf ∧
      ∀ a, a < 12 + padLen (lenOf s) → memRead t.outMem a = memRead v.outMem a)

/-! ## All commands: frames, errors, refusals -/

/-- R34 (writes), R41, R43, R54: the frame of every command. KEY, LEN, IN, the platform's sizes and the host's lists are
never written; each other register only by the commands the matrix names; every byte of OUT outside the addresses the
command stores to reads as before; a command that raises writes no byte of OUT. -/
def Obligations.CommandFrame : Prop :=
  ∀ (i : Instr) (s t : State), exec i s = .next t →
    t.key = s.key ∧ t.len = s.len ∧ t.inMem = s.inMem ∧ t.inSize = s.inSize ∧ t.outSize = s.outSize ∧
    t.pending = s.pending ∧ t.replies = s.replies ∧ t.resets = s.resets ∧
    (i ≠ .encode → t.blkidx = s.blkidx ∧ t.outlen = s.outlen) ∧
    (i ≠ .csumInit → i ≠ .csumUpd → i ≠ .encode → t.csum = s.csum) ∧
    (i ≠ .blkXform → i ≠ .blkLoad → i ≠ .encode → t.blkbuf = s.blkbuf) ∧
    (i ≠ .blkStore → i ≠ .hdrWrite → i ≠ .encode → t.outMem = s.outMem) ∧
    (Memory.wf s.outMem → ∀ a, ¬ Claims.StoresTo i s a → memRead t.outMem a = memRead s.outMem a) ∧
    (t.result ≠ 0#4 → t.outMem = s.outMem)

/-- R34 (reads), R30: what a command writes is a function of what the matrix says it reads: from two states that agree on
that, both complete or neither does, with the same result, and each register the command writes on success gets the same
value. -/
def Obligations.CommandsReadOnlyTheirOperands : Prop :=
  ∀ (i : Instr) (s u t : State), Claims.ReadsAgree i s u → exec i s = .next t →
    ∃ v, exec i u = .next v ∧ v.result = t.result ∧
      (t.result = 0#4 → i = .csumInit ∨ i = .csumUpd ∨ i = .encode → v.csum = t.csum) ∧
      (t.result = 0#4 → i = .blkXform ∨ i = .blkLoad ∨ i = .encode → v.blkbuf = t.blkbuf) ∧
      (i = .encode → v.outlen = t.outlen) ∧
      (t.result = 0#4 → i = .encode → v.blkidx = t.blkidx) ∧
      (t.result = 0#4 → Memory.wf s.outMem → Memory.wf u.outMem →
        ∀ a, Claims.StoresTo i s a → memRead v.outMem a = memRead t.outMem a)

/-- R131, R132, R130: InvalidInput is raised exactly by BLK.LOAD, BLK.STORE and ENCODE with LEN not valid, and by BLK.LOAD
and BLK.STORE with BLKIDX past the last block; a command ends with OK or InvalidInput, never another code. -/
def Obligations.InvalidInputExactlyWhen : Prop :=
  ∀ (i : Instr) (s t : State), exec i s = .next t →
    (t.result = 0#4 ∨ t.result = 1#4) ∧
    (t.result = 1#4 ↔
      ((i = .blkLoad ∨ i = .blkStore ∨ i = .encode) ∧ (lenOf s = 0 ∨ 0xFFFFF800 < lenOf s)) ∨
      ((i = .blkLoad ∨ i = .blkStore) ∧ nblk (lenOf s) ≤ idxOf s))

/-- R135, R18: errors are precise: the state after a CMD write that raises is the state before it with RESULT and, for
ENCODE, OUTLEN replaced. -/
def Obligations.ErrorEntryIsPrecise : Prop :=
  ∀ (w : Word) (s t : State), issueCommand w s = .next t → t.result ≠ 0#4 →
    t = { s with result := t.result, outlen := if w = 0x0000002F#32 then 0#32 else s.outlen }

/-- R136: after an error the next command starts from the state the error left, and a host that reissues the same command
gets the same error and the same state. -/
def Obligations.ReissuedCommandRaisesAgain : Prop :=
  ∀ (w : Word) (s t : State), issueCommand w s = .next t → t.result ≠ 0#4 → issueCommand w t = .next t

/-- R44: a command has no next state exactly when it would read IN at or past IN_SIZE or write OUT at or past OUT_SIZE, and
with IN_SIZE = OUT_SIZE = 2^32 the case cannot arise. -/
def Obligations.RefusedExactlyBeyondThePlatform : Prop :=
  (∀ (i : Instr) (s : State), (∃ r, exec i s = .refused r) ↔
    (i = .blkLoad ∧ ValidLen (lenOf s) ∧ idxOf s < nblk (lenOf s) ∧
      ∃ p, 2048 * idxOf s ≤ p ∧ p < 2048 * (idxOf s + 1) ∧ p < lenOf s ∧ s.inSize ≤ p) ∨
    (i = .blkStore ∧ ValidLen (lenOf s) ∧ idxOf s < nblk (lenOf s) ∧ s.outSize < 12 + 2048 * (idxOf s + 1)) ∨
    (i = .hdrWrite ∧ s.outSize < 12) ∨
    (i = .encode ∧ ValidLen (lenOf s) ∧ (s.inSize < lenOf s ∨ s.outSize < 12 + padLen (lenOf s)))) ∧
  ∀ (i : Instr) (s : State), s.inSize = 2 ^ 32 → s.outSize = 2 ^ 32 → ∃ t, exec i s = .next t

/-! ## The host's side -/

/-- R65, R66, R53: the register window. A read of a window offset answers the register the map names (CMD and the reserved
offsets read 0) and has no side effect; a write stores to KEY, BLKIDX, CSUM or LEN, is ignored at STATUS, OUTLEN and the
reserved offsets, and at CMD executes the command. -/
def Obligations.RegisterWindowMap : Prop :=
  (∀ (s : State) (off : Nat) (rest : List HostAction), s.pending = .read 4 off :: rest → off % 4 = 0 → off ≤ 0xFFC →
    step s = .next { s with
      pending := rest
      replies := s.replies ++ [.word (
        if off = 0x000 then 0#32
        else if off = 0x004 then s.result.zeroExtend 32
        else if off = 0x008 then s.key
        else if off = 0x00C then s.blkidx
        else if off = 0x010 then s.csum
        else if off = 0x014 then s.len
        else if off = 0x018 then s.outlen
        else if off ≤ 0x7FC then 0#32
        else blkByte s.blkbuf (off - 0x800 + 3) ++ blkByte s.blkbuf (off - 0x800 + 2) ++
          blkByte s.blkbuf (off - 0x800 + 1) ++ blkByte s.blkbuf (off - 0x800))] }) ∧
  ∀ (s : State) (off : Nat) (v : Word) (rest : List HostAction), s.pending = .write 4 off v :: rest →
    off % 4 = 0 → off ≤ 0x7FC →
    step s =
      if off = 0x000 then issueCommand v { s with pending := rest }
      else if off = 0x008 then .next { s with pending := rest, key := v }
      else if off = 0x00C then .next { s with pending := rest, blkidx := v }
      else if off = 0x010 then .next { s with pending := rest, csum := v }
      else if off = 0x014 then .next { s with pending := rest, len := v }
      else .next { s with pending := rest }

/-- R46, R33: a host read of window word k answers le32 of BLKBUF[4k .. 4k+4); a host write of v to it writes byte_m(v) to
BLKBUF[4k+m] and nothing else, and the word then reads as v. -/
def Obligations.WindowWordIsLittleEndian : Prop :=
  (∀ (s : State) (k : Nat) (rest : List HostAction), k < 512 → s.pending = .read 4 (0x800 + 4 * k) :: rest →
    step s = .next { s with
      pending := rest
      replies := s.replies ++ [.word (blkByte s.blkbuf (4 * k + 3) ++ blkByte s.blkbuf (4 * k + 2) ++
        blkByte s.blkbuf (4 * k + 1) ++ blkByte s.blkbuf (4 * k))] }) ∧
  ∀ (s : State) (k : Nat) (v : Word) (rest : List HostAction), k < 512 →
    s.pending = .write 4 (0x800 + 4 * k) v :: rest →
    ∃ t, step s = .next t ∧ t = { s with pending := rest, blkbuf := t.blkbuf } ∧
      (∀ j, j < 2048 → blkByte t.blkbuf j = if j / 4 = k then byteOf v (j % 4) else blkByte s.blkbuf j) ∧
      hostRead (.window k) t = v

/-- R51: a host access to REG is refused exactly when it is not 32 bits wide, not at a multiple of 4, or outside
0x000 .. 0xFFC. -/
def Obligations.BadHostAccessIsRefused : Prop :=
  ∀ s : State, step s = .refused .badHostAccess ↔
    ∃ width off rest, ((∃ v, s.pending = .write width off v :: rest) ∨ s.pending = .read width off :: rest) ∧
      (width ≠ 4 ∨ off % 4 ≠ 0 ∨ 0xFFC < off)

/-- R72 with log entries 7 and 8 (the model's choice of where a placed byte and a reply stand): placing bytes in IN changes
those bytes alone, and reading bytes of OUT answers them and changes nothing else. -/
def Obligations.HostMemoryActions : Prop :=
  (∀ (s : State) (off : Nat) (bs : List Byte) (rest : List HostAction), Memory.wf s.inMem →
    s.pending = .placeIn off bs :: rest → off + bs.length ≤ s.inSize →
    ∃ t, step s = .next t ∧ t = { s with pending := rest, inMem := t.inMem } ∧
      ∀ a, memRead t.inMem a = if off ≤ a ∧ a < off + bs.length then bs.getD (a - off) 0#8 else memRead s.inMem a) ∧
  ∀ (s : State) (off count : Nat) (rest : List HostAction), s.pending = .fetchOut off count :: rest →
    off + count ≤ s.outSize →
    step s = .next { s with
      pending := rest
      replies := s.replies ++ [.bytes ((List.range count).map fun j => memRead s.outMem (off + j))] }

/-- R21 to R25, R27, R28, R43: who writes what. In one step KEY and LEN change only by a host write to them or a reset, and
each other register, BLKBUF, IN and OUT only by the host actions and commands the rules name; RESULT only by a write to
CMD or a reset; OUTLEN only by ENCODE or a reset. That the host itself writes no byte of OUT is the model's choice of host
actions (log entry 16). -/
def Obligations.OnlyTheNamedWriters : Prop :=
  ∀ (s t : State) (a : HostAction) (rest : List HostAction), s.pending = a :: rest → step s = .next t →
    (t.key ≠ s.key → a = .reset ∨ ∃ v, a = wr .key v) ∧
    (t.len ≠ s.len → a = .reset ∨ ∃ v, a = wr .len v) ∧
    (t.blkidx ≠ s.blkidx → a = .reset ∨ (∃ v, a = wr .blkidx v) ∨ a = cmd .encode) ∧
    (t.csum ≠ s.csum → a = .reset ∨ (∃ v, a = wr .csum v) ∨ a = cmd .csumInit ∨ a = cmd .csumUpd ∨ a = cmd .encode) ∧
    (t.blkbuf ≠ s.blkbuf →
      a = .reset ∨ (∃ k v, k < 512 ∧ a = wrBlkbuf k v) ∨ a = cmd .blkXform ∨ a = cmd .blkLoad ∨ a = cmd .encode) ∧
    (t.result ≠ s.result → a = .reset ∨ ∃ w, a = wr .cmd w) ∧
    (t.outlen ≠ s.outlen → a = .reset ∨ a = cmd .encode) ∧
    (t.inMem ≠ s.inMem → ∃ off bs, a = .placeIn off bs) ∧
    (t.outMem ≠ s.outMem → a = cmd .blkStore ∨ a = cmd .hdrWrite ∨ a = cmd .encode) ∧
    t.inSize = s.inSize ∧ t.outSize = s.outSize ∧ t.pending = rest

/-- R27: STATUS bits 31:4 read as 0 in every state, and RESULT is not sticky: a command that completes after an error sets
it back to 0. -/
def Obligations.StatusShowsTheLastResult : Prop :=
  (∀ s : State, (statusWord s).extractLsb' 4 28 = 0#28 ∧ (statusWord s).extractLsb' 0 4 = s.result) ∧
  ∀ (s : State) (w : Word), w ∉ Claims.commandWords.map Prod.fst →
    ∃ t u, issueCommand w s = .next t ∧ statusWord t = 3#32 ∧ issueCommand 0x00000001#32 t = .next u ∧
      statusWord u = 0#32

/-- R56: the final state is that of the host actions applied one after another in issue order. -/
def Obligations.ActionsApplyInIssueOrder : Prop :=
  ∀ (s : State) (p rest : List HostAction),
    (core.run p.length { s with pending := p ++ rest } : Outcome) =
      p.foldl (fun (o : Outcome) a =>
        match o with
        | .next u => hostStep a u
        | .fault f => .fault f
        | .refused r => .refused r) (.next { s with pending := rest })

/-! ## Reset and the whole machine -/

/-- R150, R32: the reset event, and the state right after reset: KEY, BLKIDX, LEN, STATUS, OUTLEN 0, CSUM 0xEF3D4323,
BLKBUF some 2048 bytes (the rule leaves them unspecified), CMD reads 0; the event does not touch IN or OUT. The counter
resets is the model's own (log entry 3). -/
def Obligations.ResetLeavesTheTable : Prop :=
  (∀ (s : State) (rest : List HostAction), s.pending = .reset :: rest →
    ∃ B : Block, step s = .next { s with
      pending := rest
      key := 0#32
      blkidx := 0#32
      csum := 0xEF3D4323#32
      len := 0#32
      blkbuf := B
      result := 0#4
      outlen := 0#32
      resets := s.resets + 1 }) ∧
  State.reset.key = 0#32 ∧ State.reset.blkidx = 0#32 ∧ State.reset.csum = 0xEF3D4323#32 ∧ State.reset.len = 0#32 ∧
  statusWord State.reset = 0#32 ∧ State.reset.outlen = 0#32 ∧ hostRead (.reg .cmd) State.reset = 0#32

/-- R151: the state after reset is usable at once, whatever OUT the platform backs (the value State.reset holds for it is
log entry 5's): STATUS reads 0, ENCODE raises InvalidInput, CSUM.UPD folds the unspecified BLKBUF, HDR.WRITE writes
44 3D 2D 3F 00 00 00 00 23 43 3D EF. -/
def Obligations.ResetStateIsUsable : Prop :=
  hostRead (.reg .status) State.reset = 0#32 ∧
  exec .encode State.reset = .next { State.reset with result := 1#4 } ∧
  exec .csumUpd State.reset = .next { State.reset with csum := fold 0xEF3D4323#32 State.reset.blkbuf } ∧
  ∀ n, 12 ≤ n → ∃ t, exec .hdrWrite { State.reset with outSize := n } = .next t ∧ t.result = 0#4 ∧
    memReadBytes t.outMem 0 12 =
      [0x44#8, 0x3D#8, 0x2D#8, 0x3F#8, 0x00#8, 0x00#8, 0x00#8, 0x00#8, 0x23#8, 0x43#8, 0x3D#8, 0xEF#8]

/-- The invariant holds right after reset. -/
def Obligations.ResetMeetsTheInvariant : Prop := StateInv State.reset

/-- Every step keeps the invariant, from every state that meets it: both memories stay in canonical form and within what
the platform backs, RESULT stays a code of R27, OUTLEN stays 0 or a container's length (R28, R115). -/
def Obligations.StepKeepsTheInvariant : Prop :=
  ∀ s t : State, StateInv s → step s = .next t → StateInv t

/-- On a platform that backs all of both spaces, a run over well-formed host actions never stops, however long: no command
is refused (R44), no error stops the machine (R135, R136). The pending list, its waiting step, and the two memory actions
with their refusals are the model's own (log entries 1, 7 and 8). -/
def Obligations.WellFormedActionsNeverStop : Prop :=
  ∀ (k : Nat) (s : State), FullPlatform s → (∀ a, a ∈ s.pending → a.wf) → SafeRun k s

/-- On a platform that backs all of both spaces, with every pending action well-formed, a step always answers a next state,
and the platform and the pending actions are still so: no command is refused (R44), no register access is (R51), no error
stops the machine (R135, R136). The pending list, its waiting step, and the two memory actions with their refusals are the
model's own (log entries 1, 7 and 8). -/
def Obligations.FullPlatformStepCompletes : Prop :=
  ∀ s : State, FullPlatform s → (∀ a, a ∈ s.pending → a.wf) →
    ∃ t, step s = .next t ∧ FullPlatform t ∧ ∀ a, a ∈ t.pending → a.wf
end

