-- ==== Sys2Proof/Laws/Block.lean ====
section
/-! SUPPORT. The laws of the block buffer and of the two functions over it: what each byte of a block built, transformed or
written through the window is, and how Fold moves its accumulator out. -/

namespace Sys2Proof.Machine

/-- A byte of the buffer by its index. -/
theorem blkByte_of_lt (B : Block) (j : Nat) (h : j < Config.blockSize) : blkByte B j = B[j] := by
  simp [blkByte, List.getD_eq_getElem?_getD, h]

/-- Two blocks with the same bytes are equal. -/
theorem block_ext {B C : Block} (h : ∀ j, j < Config.blockSize → blkByte B j = blkByte C j) : B = C := by
  refine Vector.ext fun j hj => ?_
  simpa [blkByte_of_lt _ _ hj] using h j hj

/-- The bytes of a block listed. -/
theorem blockOf_toList (f : Nat → Byte) : (blockOf f).toList = (List.range Config.blockSize).map f := by
  rw [blockOf, Vector.toList]

/-- The bytes of a block built from a function. -/
theorem blkByte_blockOf (f : Nat → Byte) (j : Nat) (h : j < Config.blockSize) : blkByte (blockOf f) j = f j := by
  simp [blkByte, blockOf_toList, List.getD_eq_getElem?_getD, List.getElem?_range h]

/-- The block of a block's own bytes. -/
theorem blockOf_blkByte (B : Block) : blockOf (blkByte B) = B := block_ext fun j hj => blkByte_blockOf _ j hj

/-- The bytes of a transformed sequence, one by one (R98). -/
theorem xformBytes_getD (p key : Word) (i : Nat) (bs : List Byte) (j : Nat) (h : j < bs.length) :
    (xformBytes p key i bs).getD j 0#8 = xformByte p key (i + j) (bs.getD j 0#8) := by
  induction bs generalizing i j with
  | nil => simp at h
  | cons b r ih =>
    cases j with
    | zero => simp [xformBytes]
    | succ j =>
      simp only [List.length_cons, Nat.add_lt_add_iff_right] at h
      simp only [xformBytes, List.getD_cons_succ, ih (i + 1) j h, Nat.add_assoc, Nat.add_comm 1]

/-- The bytes of a transformed block, one by one (R90, R98). -/
theorem blkByte_transform (B : Block) (idx key : Word) (j : Nat) (h : j < Config.blockSize) :
    blkByte (transform B idx key) j = xformByte (Config.idxMul * idx) key j (blkByte B j) := by
  simpa [blkByte, transform, Vector.toList] using xformBytes_getD (Config.idxMul * idx) key 0 B.toList j (by simpa using h)

/-- The transform is an exclusive or with a byte that does not depend on the data (R92). -/
theorem xformByte_eq_xor_mask (p key : Word) (i : Nat) (b : Byte) :
    xformByte p key i b = b ^^^ xformByte p key i 0#8 := by
  apply BitVec.eq_of_getLsbD_eq
  intro n hn
  simp only [xformByte, BitVec.getLsbD_extractLsb', BitVec.getLsbD_xor, BitVec.getLsbD_setWidth, Nat.zero_add, hn,
    decide_true, Bool.true_and, BitVec.getLsbD_zero, Bool.and_false, Bool.xor_false, (by omega : n < 32)]
  exact Bool.xor_comm _ _

/-- A value folded into the accumulator before is a value folded in after (R80, R81). -/
theorem foldBytes_xor (acc d : Word) (bs : List Byte) : foldBytes (acc ^^^ d) bs = foldBytes acc bs ^^^ d := by
  induction acc, bs using foldBytes.induct with
  | case1 acc b0 b1 b2 b3 r ih =>
    rw [foldBytes, foldBytes, ← ih, BitVec.xor_assoc, BitVec.xor_comm d, ← BitVec.xor_assoc]
  | case2 acc bs h => rw [foldBytes.eq_2 _ _ h, foldBytes.eq_2 _ _ h]

/-- The accumulator of Fold can be taken out (R80). -/
theorem fold_eq_xor (acc : Word) (B : Block) : fold acc B = acc ^^^ fold 0#32 B := by
  have h := foldBytes_xor 0#32 acc B.toList
  rw [BitVec.zero_xor] at h
  rw [fold, h, BitVec.xor_comm, fold]

end Sys2Proof.Machine
end

