-- ==== Sys2Proof/Laws/Memory.lean ====
section
/-! SUPPORT. The laws of the byte memory: a read after a write to the same address gives the byte, a write leaves every
other address alone, and every operation keeps the canonical form and the platform's bound. -/

namespace Sys2Proof.Machine

/-- An address below every listed address reads as unlisted. -/
theorem memRead_of_lt (m : Memory) (x : Nat) (h : ∀ c ∈ m, x < c.1) : memRead m x = Config.memUnlisted := by
  induction m with
  | nil => rfl
  | cons c r ih =>
    have hc := h c (by simp)
    simp only [memRead, if_neg (Nat.ne_of_lt hc)]
    exact ih fun d hd => h d (by simp [hd])

/-- Reading the byte put before a memory of larger addresses. -/
theorem memRead_memCons_same (m : Memory) (x : Nat) (v : Byte) (h : ∀ c ∈ m, x < c.1) :
    memRead (memCons x v m) x = v := by
  unfold memCons
  split
  · next hv => rw [hv, memRead_of_lt m x h]
  · simp [memRead]

/-- Reading another address than the byte put before a memory. -/
theorem memRead_memCons_other (m : Memory) (x y : Nat) (v : Byte) (h : y ≠ x) :
    memRead (memCons x v m) y = memRead m y := by
  unfold memCons
  split
  · rfl
  · simp [memRead, h]

/-- What the tail of a canonical memory holds. -/
theorem Memory.wf_cons {a : Nat} {b : Byte} {r : Memory} :
    Memory.wf ((a, b) :: r) ↔ (∀ c ∈ r, a < c.1) ∧ b ≠ Config.memUnlisted ∧ Memory.wf r := by
  simp only [Memory.wf, List.pairwise_cons, List.mem_cons, forall_eq_or_imp]
  tauto

/-- A read after a write to the same address gives the byte written. -/
theorem memRead_memWrite_same (m : Memory) (x : Nat) (v : Byte) (hm : Memory.wf m) :
    memRead (memWrite m x v) x = v := by
  induction m with
  | nil => exact memRead_memCons_same [] x v (by simp)
  | cons c r ih =>
    obtain ⟨a, b⟩ := c
    obtain ⟨hlt, _, hr⟩ := Memory.wf_cons.mp hm
    unfold memWrite
    split
    · next hx =>
      refine memRead_memCons_same _ x v fun c hc => ?_
      rcases List.mem_cons.mp hc with rfl | hc
      · exact hx
      · exact Nat.lt_trans hx (hlt c hc)
    · split
      · next hxa => exact memRead_memCons_same r x v fun c hc => hxa ▸ hlt c hc
      · next hxa => simp [memRead, hxa, ih hr]

/-- A write leaves every other address alone. -/
theorem memRead_memWrite_other (m : Memory) (x y : Nat) (v : Byte) (h : y ≠ x) :
    memRead (memWrite m x v) y = memRead m y := by
  induction m with
  | nil => exact memRead_memCons_other [] x y v h
  | cons c r ih =>
    obtain ⟨a, b⟩ := c
    unfold memWrite
    split
    · exact memRead_memCons_other _ x y v h
    · split
      · next hxa => rw [memRead_memCons_other r x y v h]; simp [memRead, hxa ▸ h]
      · simp [memRead, ih]

/-- Where the entries of a memory come from after a byte is put before it. -/
theorem mem_memCons {m : Memory} {x : Nat} {v : Byte} {c : Host.Cell} (h : c ∈ memCons x v m) :
    c.1 = x ∨ c ∈ m := by
  unfold memCons at h
  split at h
  · exact .inr h
  · rcases List.mem_cons.mp h with rfl | h
    · exact .inl rfl
    · exact .inr h

/-- Where the addresses of a memory after a write come from. -/
theorem mem_memWrite {m : Memory} {x : Nat} {v : Byte} {c : Host.Cell} (h : c ∈ memWrite m x v) :
    c.1 = x ∨ c ∈ m := by
  induction m with
  | nil => exact mem_memCons h
  | cons d r ih =>
    obtain ⟨a, b⟩ := d
    unfold memWrite at h
    split at h
    · exact mem_memCons h
    · split at h
      · rcases mem_memCons h with h | h <;> simp [h]
      · rcases List.mem_cons.mp h with rfl | h
        · simp
        · rcases ih h with h | h <;> simp [h]

/-- The canonical form of a byte put before a memory of larger addresses. -/
theorem memCons_wf {m : Memory} {x : Nat} {v : Byte} (hm : Memory.wf m) (h : ∀ c ∈ m, x < c.1) :
    Memory.wf (memCons x v m) := by
  unfold memCons
  split
  · exact hm
  · next hv => exact Memory.wf_cons.mpr ⟨h, hv, hm⟩

/-- A write keeps the canonical form. -/
theorem memWrite_wf (m : Memory) (x : Nat) (v : Byte) (hm : Memory.wf m) : Memory.wf (memWrite m x v) := by
  induction m with
  | nil => exact memCons_wf hm (by simp)
  | cons c r ih =>
    obtain ⟨a, b⟩ := c
    obtain ⟨hlt, hb, hr⟩ := Memory.wf_cons.mp hm
    unfold memWrite
    split
    · next hx =>
      refine memCons_wf hm fun c hc => ?_
      rcases List.mem_cons.mp hc with rfl | hc
      · exact hx
      · exact Nat.lt_trans hx (hlt c hc)
    · split
      · next hxa => exact memCons_wf hr fun c hc => hxa ▸ hlt c hc
      · next hx hxa =>
        refine Memory.wf_cons.mpr ⟨fun c hc => ?_, hb, ih hr⟩
        rcases mem_memWrite hc with h | h
        · omega
        · exact hlt c h

/-- A write below the platform's bound keeps the memory within it. -/
theorem memWrite_within {m : Memory} {x size : Nat} {v : Byte} (hm : Memory.within m size) (hx : x < size) :
    Memory.within (memWrite m x v) size := by
  intro c hc
  rcases mem_memWrite hc with h | h
  · exact h ▸ hx
  · exact hm c h

/-- Writing bytes keeps the canonical form. -/
theorem memWriteBytes_wf (m : Memory) (x : Nat) (bs : List Byte) (hm : Memory.wf m) :
    Memory.wf (memWriteBytes m x bs) := by
  induction bs generalizing x with
  | nil => exact hm
  | cons b r ih => exact memWrite_wf _ x b (ih (x + 1))

/-- Writing bytes below the platform's bound keeps the memory within it. -/
theorem memWriteBytes_within {m : Memory} {x size : Nat} {bs : List Byte} (hm : Memory.within m size)
    (hx : x + bs.length ≤ size) : Memory.within (memWriteBytes m x bs) size := by
  induction bs generalizing x with
  | nil => exact hm
  | cons b r ih =>
    simp only [List.length_cons] at hx
    exact memWrite_within (ih (by omega)) (by omega)

/-- What a memory reads as after bytes are written at consecutive addresses. -/
theorem memRead_memWriteBytes (m : Memory) (x : Nat) (bs : List Byte) (y : Nat) (hm : Memory.wf m) :
    memRead (memWriteBytes m x bs) y =
      if x ≤ y ∧ y < x + bs.length then bs.getD (y - x) 0#8 else memRead m y := by
  induction bs generalizing x with
  | nil => simp [memWriteBytes]
  | cons b r ih =>
    by_cases hyx : y = x
    · subst hyx
      simp [memWriteBytes, memRead_memWrite_same _ _ _ (memWriteBytes_wf m _ r hm)]
    · rw [memWriteBytes, memRead_memWrite_other _ _ _ _ hyx, ih (x + 1)]
      by_cases hin : x + 1 ≤ y ∧ y < x + 1 + r.length
      · have h2 : x ≤ y ∧ y < x + (b :: r).length := by simp only [List.length_cons]; omega
        have h3 : y - x = (y - (x + 1)) + 1 := by omega
        rw [if_pos hin, if_pos h2, h3, List.getD_cons_succ]
      · have h2 : ¬ (x ≤ y ∧ y < x + (b :: r).length) := by simp only [List.length_cons]; omega
        rw [if_neg hin, if_neg h2]

/-- The bytes read at consecutive addresses, one by one. -/
theorem memReadBytes_eq_map (m : Memory) (x n : Nat) :
    memReadBytes m x n = (List.range n).map fun j => memRead m (x + j) := by
  induction n generalizing x with
  | zero => rfl
  | succ n ih =>
    simp [memReadBytes, ih, List.range_succ_eq_map, Function.comp_def, Nat.add_assoc, Nat.add_comm 1]

/-- The memory of the state after reset is in canonical form. -/
theorem reset_memories_wf : Memory.wf State.reset.inMem ∧ Memory.wf State.reset.outMem := by
  simp [State.reset, Memory.wf]

end Sys2Proof.Machine
end

