-- ==== Sys2Proof/Laws/State.lean ====
section
/-! SUPPORT. One lemma per field per named update of State, each true by rfl, so that no later proof unfolds a record
update. -/

namespace Sys2Proof.Machine

/-! ## finish (R19) -/

@[simp] theorem finish_key (s : State) : (finish s).key = s.key := rfl
@[simp] theorem finish_blkidx (s : State) : (finish s).blkidx = s.blkidx := rfl
@[simp] theorem finish_csum (s : State) : (finish s).csum = s.csum := rfl
@[simp] theorem finish_len (s : State) : (finish s).len = s.len := rfl
@[simp] theorem finish_blkbuf (s : State) : (finish s).blkbuf = s.blkbuf := rfl
@[simp] theorem finish_result (s : State) : (finish s).result = okCode := rfl
@[simp] theorem finish_outlen (s : State) : (finish s).outlen = s.outlen := rfl
@[simp] theorem finish_inMem (s : State) : (finish s).inMem = s.inMem := rfl
@[simp] theorem finish_outMem (s : State) : (finish s).outMem = s.outMem := rfl
@[simp] theorem finish_inSize (s : State) : (finish s).inSize = s.inSize := rfl
@[simp] theorem finish_outSize (s : State) : (finish s).outSize = s.outSize := rfl
@[simp] theorem finish_pending (s : State) : (finish s).pending = s.pending := rfl
@[simp] theorem finish_replies (s : State) : (finish s).replies = s.replies := rfl
@[simp] theorem finish_resets (s : State) : (finish s).resets = s.resets := rfl

/-! ## raise (R18, R135) -/

@[simp] theorem raise_key (e : CmdError) (s : State) : (raise e s).key = s.key := rfl
@[simp] theorem raise_blkidx (e : CmdError) (s : State) : (raise e s).blkidx = s.blkidx := rfl
@[simp] theorem raise_csum (e : CmdError) (s : State) : (raise e s).csum = s.csum := rfl
@[simp] theorem raise_len (e : CmdError) (s : State) : (raise e s).len = s.len := rfl
@[simp] theorem raise_blkbuf (e : CmdError) (s : State) : (raise e s).blkbuf = s.blkbuf := rfl
@[simp] theorem raise_result (e : CmdError) (s : State) : (raise e s).result = errorCode e := rfl
@[simp] theorem raise_outlen (e : CmdError) (s : State) : (raise e s).outlen = s.outlen := rfl
@[simp] theorem raise_inMem (e : CmdError) (s : State) : (raise e s).inMem = s.inMem := rfl
@[simp] theorem raise_outMem (e : CmdError) (s : State) : (raise e s).outMem = s.outMem := rfl
@[simp] theorem raise_inSize (e : CmdError) (s : State) : (raise e s).inSize = s.inSize := rfl
@[simp] theorem raise_outSize (e : CmdError) (s : State) : (raise e s).outSize = s.outSize := rfl
@[simp] theorem raise_pending (e : CmdError) (s : State) : (raise e s).pending = s.pending := rfl
@[simp] theorem raise_replies (e : CmdError) (s : State) : (raise e s).replies = s.replies := rfl
@[simp] theorem raise_resets (e : CmdError) (s : State) : (raise e s).resets = s.resets := rfl

/-! ## addReply -/

@[simp] theorem addReply_key (r : Reply) (s : State) : (addReply r s).key = s.key := rfl
@[simp] theorem addReply_blkidx (r : Reply) (s : State) : (addReply r s).blkidx = s.blkidx := rfl
@[simp] theorem addReply_csum (r : Reply) (s : State) : (addReply r s).csum = s.csum := rfl
@[simp] theorem addReply_len (r : Reply) (s : State) : (addReply r s).len = s.len := rfl
@[simp] theorem addReply_blkbuf (r : Reply) (s : State) : (addReply r s).blkbuf = s.blkbuf := rfl
@[simp] theorem addReply_result (r : Reply) (s : State) : (addReply r s).result = s.result := rfl
@[simp] theorem addReply_outlen (r : Reply) (s : State) : (addReply r s).outlen = s.outlen := rfl
@[simp] theorem addReply_inMem (r : Reply) (s : State) : (addReply r s).inMem = s.inMem := rfl
@[simp] theorem addReply_outMem (r : Reply) (s : State) : (addReply r s).outMem = s.outMem := rfl
@[simp] theorem addReply_inSize (r : Reply) (s : State) : (addReply r s).inSize = s.inSize := rfl
@[simp] theorem addReply_outSize (r : Reply) (s : State) : (addReply r s).outSize = s.outSize := rfl
@[simp] theorem addReply_pending (r : Reply) (s : State) : (addReply r s).pending = s.pending := rfl
@[simp] theorem addReply_replies (r : Reply) (s : State) : (addReply r s).replies = s.replies ++ [r] := rfl
@[simp] theorem addReply_resets (r : Reply) (s : State) : (addReply r s).resets = s.resets := rfl

/-! ## resetBlock (R150) -/

@[simp] theorem resetBlock_key (s : State) : (resetBlock s).key = 0#32 := rfl
@[simp] theorem resetBlock_blkidx (s : State) : (resetBlock s).blkidx = 0#32 := rfl
@[simp] theorem resetBlock_csum (s : State) : (resetBlock s).csum = Config.csumSeed := rfl
@[simp] theorem resetBlock_len (s : State) : (resetBlock s).len = 0#32 := rfl
@[simp] theorem resetBlock_blkbuf (s : State) : (resetBlock s).blkbuf = blkbufAfterReset (s.resets + 1) := rfl
@[simp] theorem resetBlock_result (s : State) : (resetBlock s).result = 0#4 := rfl
@[simp] theorem resetBlock_outlen (s : State) : (resetBlock s).outlen = 0#32 := rfl
@[simp] theorem resetBlock_inMem (s : State) : (resetBlock s).inMem = s.inMem := rfl
@[simp] theorem resetBlock_outMem (s : State) : (resetBlock s).outMem = s.outMem := rfl
@[simp] theorem resetBlock_inSize (s : State) : (resetBlock s).inSize = s.inSize := rfl
@[simp] theorem resetBlock_outSize (s : State) : (resetBlock s).outSize = s.outSize := rfl
@[simp] theorem resetBlock_pending (s : State) : (resetBlock s).pending = s.pending := rfl
@[simp] theorem resetBlock_replies (s : State) : (resetBlock s).replies = s.replies := rfl
@[simp] theorem resetBlock_resets (s : State) : (resetBlock s).resets = s.resets + 1 := rfl

/-! ## encodeResult (R112) -/

@[simp] theorem encodeResult_key (s : State) (n : Nat) : (encodeResult s n).key = s.key := rfl
@[simp] theorem encodeResult_blkidx (s : State) (n : Nat) : (encodeResult s n).blkidx = BitVec.ofNat 32 (n - 1) := rfl
@[simp] theorem encodeResult_csum (s : State) (n : Nat) : (encodeResult s n).csum = encodeAcc s.inMem (lenOf s) s.key n := rfl
@[simp] theorem encodeResult_len (s : State) (n : Nat) : (encodeResult s n).len = s.len := rfl
@[simp] theorem encodeResult_blkbuf (s : State) (n : Nat) : (encodeResult s n).blkbuf = payloadBlock s.inMem (lenOf s) s.key (n - 1) := rfl
@[simp] theorem encodeResult_result (s : State) (n : Nat) : (encodeResult s n).result = s.result := rfl
@[simp] theorem encodeResult_outlen (s : State) (n : Nat) : (encodeResult s n).outlen = BitVec.ofNat 32 (Config.hdrLen + Config.blockSize * n) := rfl
@[simp] theorem encodeResult_inMem (s : State) (n : Nat) : (encodeResult s n).inMem = s.inMem := rfl
@[simp] theorem encodeResult_outMem (s : State) (n : Nat) : (encodeResult s n).outMem = storeHeader (encodePayload s.inMem (lenOf s) s.key s.outMem n) s.key (encodeAcc s.inMem (lenOf s) s.key n) := rfl
@[simp] theorem encodeResult_inSize (s : State) (n : Nat) : (encodeResult s n).inSize = s.inSize := rfl
@[simp] theorem encodeResult_outSize (s : State) (n : Nat) : (encodeResult s n).outSize = s.outSize := rfl
@[simp] theorem encodeResult_pending (s : State) (n : Nat) : (encodeResult s n).pending = s.pending := rfl
@[simp] theorem encodeResult_replies (s : State) (n : Nat) : (encodeResult s n).replies = s.replies := rfl
@[simp] theorem encodeResult_resets (s : State) (n : Nat) : (encodeResult s n).resets = s.resets := rfl

/-! ## placeCommand -/

@[simp] theorem placeCommand_key (w : Word) (s : State) : (placeCommand w s).key = s.key := rfl
@[simp] theorem placeCommand_blkidx (w : Word) (s : State) : (placeCommand w s).blkidx = s.blkidx := rfl
@[simp] theorem placeCommand_csum (w : Word) (s : State) : (placeCommand w s).csum = s.csum := rfl
@[simp] theorem placeCommand_len (w : Word) (s : State) : (placeCommand w s).len = s.len := rfl
@[simp] theorem placeCommand_blkbuf (w : Word) (s : State) : (placeCommand w s).blkbuf = s.blkbuf := rfl
@[simp] theorem placeCommand_result (w : Word) (s : State) : (placeCommand w s).result = s.result := rfl
@[simp] theorem placeCommand_outlen (w : Word) (s : State) : (placeCommand w s).outlen = s.outlen := rfl
@[simp] theorem placeCommand_inMem (w : Word) (s : State) : (placeCommand w s).inMem = s.inMem := rfl
@[simp] theorem placeCommand_outMem (w : Word) (s : State) : (placeCommand w s).outMem = s.outMem := rfl
@[simp] theorem placeCommand_inSize (w : Word) (s : State) : (placeCommand w s).inSize = s.inSize := rfl
@[simp] theorem placeCommand_outSize (w : Word) (s : State) : (placeCommand w s).outSize = s.outSize := rfl
@[simp] theorem placeCommand_pending (w : Word) (s : State) : (placeCommand w s).pending = .write 4 0x000 w :: s.pending := rfl
@[simp] theorem placeCommand_replies (w : Word) (s : State) : (placeCommand w s).replies = s.replies := rfl
@[simp] theorem placeCommand_resets (w : Word) (s : State) : (placeCommand w s).resets = s.resets := rfl

end Sys2Proof.Machine
end

