-- ==== Sys2Proof/Laws/Exec.lean ====
section
/-! SUPPORT. What each meaning can do, said once: if it answers a next state, then one of the listed cases holds. The
claims cite these lemmas instead of unfolding the meanings. -/

namespace Sys2Proof.Machine

/-- The block length test of CSUM.UPD and ENCODE never raises at BLOCK_SIZE = 2048 (R132). -/
theorem blockSize_mod_four : Config.blockSize % 4 = 0 := by decide

/-- CSUM.INIT always completes (R82). -/
theorem execCsumInit_eq (s : State) : execCsumInit s = .next (finish { s with csum := Config.csumSeed }) := rfl

/-- CSUM.UPD always completes, since MalformedBlock is unreachable (R83, R132). -/
theorem execCsumUpd_eq (s : State) : execCsumUpd s = .next (finish { s with csum := fold s.csum s.blkbuf }) := by
  rw [execCsumUpd, if_neg (by decide)]

/-- BLK.XFORM always completes (R94). -/
theorem execBlkXform_eq (s : State) :
    execBlkXform s = .next (finish { s with blkbuf := transform s.blkbuf s.blkidx s.key }) := rfl

/-- What BLK.LOAD can do (R108). -/
theorem execBlkLoad_cases {s t : State} (h : execBlkLoad s = .next t) :
    (NamesNoBlock s ∧ t = raise .invalidInput s) ∨
    (¬ NamesNoBlock s ∧ loadEnd (lenOf s) (idxOf s) ≤ s.inSize ∧
      t = finish { s with blkbuf := paddedBlock s.inMem (lenOf s) (idxOf s) }) := by
  unfold execBlkLoad at h
  split at h
  · next hn => exact .inl ⟨hn, by injection h with h; exact h.symm⟩
  · next hn =>
    split at h
    · cases h
    · next hi => exact .inr ⟨hn, Nat.le_of_not_lt hi, by injection h with h; exact h.symm⟩

/-- What BLK.STORE can do (R109). -/
theorem execBlkStore_cases {s t : State} (h : execBlkStore s = .next t) :
    (NamesNoBlock s ∧ t = raise .invalidInput s) ∨
    (¬ NamesNoBlock s ∧ payloadOffset (idxOf s + 1) ≤ s.outSize ∧
      t = finish { s with outMem := storeBlock s.outMem (idxOf s) s.blkbuf }) := by
  unfold execBlkStore at h
  split at h
  · next hn => exact .inl ⟨hn, by injection h with h; exact h.symm⟩
  · next hn =>
    split at h
    · cases h
    · next hi => exact .inr ⟨hn, Nat.le_of_not_lt hi, by injection h with h; exact h.symm⟩

/-- What HDR.WRITE can do (R110). -/
theorem execHdrWrite_cases {s t : State} (h : execHdrWrite s = .next t) :
    Config.hdrLen ≤ s.outSize ∧ t = finish { s with outMem := storeHeader s.outMem s.key s.csum } := by
  unfold execHdrWrite at h
  split at h
  · cases h
  · next hi => exact ⟨Nat.le_of_not_lt hi, by injection h with h; exact h.symm⟩

/-- What ENCODE can do (R112, R113). -/
theorem execEncode_cases {s t : State} (h : execEncode s = .next t) :
    (¬ ValidLen (lenOf s) ∧ t = raise .invalidInput { s with outlen := 0#32 }) ∨
    (ValidLen (lenOf s) ∧ EncodeBacked s ∧ t = finish (encodeResult s (nblk (lenOf s)))) := by
  unfold execEncode at h
  split at h
  · next hv => exact .inl ⟨hv, by injection h with h; exact h.symm⟩
  · next hv =>
    rw [if_neg (by decide)] at h
    split at h
    · cases h
    · next hi =>
      split at h
      · cases h
      · next ho =>
        exact .inr ⟨not_not.mp hv, ⟨Nat.le_of_not_lt hi, Nat.le_of_not_lt ho⟩, by injection h with h; exact h.symm⟩

/-- BLK.LOAD completes when LEN and BLKIDX name a block that IN backs (R108, R44). -/
theorem execBlkLoad_of_backed {s : State} (hn : ¬ NamesNoBlock s) (hi : loadEnd (lenOf s) (idxOf s) ≤ s.inSize) :
    execBlkLoad s = .next (finish { s with blkbuf := paddedBlock s.inMem (lenOf s) (idxOf s) }) := by
  rw [execBlkLoad, if_neg hn, if_neg (Nat.not_lt.2 hi)]

/-- BLK.STORE completes when LEN and BLKIDX name a block that OUT backs (R109, R44). -/
theorem execBlkStore_of_backed {s : State} (hn : ¬ NamesNoBlock s) (ho : payloadOffset (idxOf s + 1) ≤ s.outSize) :
    execBlkStore s = .next (finish { s with outMem := storeBlock s.outMem (idxOf s) s.blkbuf }) := by
  rw [execBlkStore, if_neg hn, if_neg (Nat.not_lt.2 ho)]

/-- HDR.WRITE completes when OUT backs the header (R110, R44). -/
theorem execHdrWrite_of_backed {s : State} (ho : Config.hdrLen ≤ s.outSize) :
    execHdrWrite s = .next (finish { s with outMem := storeHeader s.outMem s.key s.csum }) := by
  rw [execHdrWrite, if_neg (Nat.not_lt.2 ho)]

/-- ENCODE completes for a valid LEN on a platform that backs the input and the container (R112, R44). -/
theorem execEncode_of_backed {s : State} (hv : ValidLen (lenOf s)) (hb : EncodeBacked s) :
    execEncode s = .next (finish (encodeResult s (nblk (lenOf s)))) := by
  rw [execEncode, if_neg (not_not.2 hv), if_neg (by decide), if_neg (Nat.not_lt.2 hb.1), if_neg (Nat.not_lt.2 hb.2)]

/-! ## What the stores of the framer leave in OUT -/

/-- OUT after a payload block is stored, byte by byte, in the spec's own numbers (R109). -/
theorem memRead_storeBlock (m : Memory) (b : Nat) (B : Block) (y : Nat) (hm : Memory.wf m) :
    memRead (storeBlock m b B) y =
      if 12 + 2048 * b ≤ y ∧ y < 12 + 2048 * (b + 1) then blkByte B (y - (12 + 2048 * b)) else memRead m y := by
  have h := memRead_memWriteBytes m (12 + 2048 * b) B.toList y hm
  rwa [Vector.length_toList, Nat.add_assoc] at h

/-- OUT after the header is stored, byte by byte, in the spec's own numbers (R110). -/
theorem memRead_storeHeader (m : Memory) (key csum : Word) (y : Nat) (hm : Memory.wf m) :
    memRead (storeHeader m key csum) y =
      if y < 12 then (headerBytes key csum).getD y 0#8 else memRead m y := by
  rw [storeHeader, memRead_memWriteBytes _ _ _ _ hm]
  simp [headerBytes, beBytes, leBytes]

/-- Storing a payload block keeps the canonical form. -/
theorem storeBlock_wf {m : Memory} {b : Nat} {B : Block} (hm : Memory.wf m) : Memory.wf (storeBlock m b B) :=
  memWriteBytes_wf _ _ _ hm

/-- Storing the header keeps the canonical form. -/
theorem storeHeader_wf {m : Memory} {key csum : Word} (hm : Memory.wf m) : Memory.wf (storeHeader m key csum) :=
  memWriteBytes_wf _ _ _ hm

/-- Storing the payload keeps the canonical form. -/
theorem encodePayload_wf {m out : Memory} {L : Nat} {key : Word} {n : Nat} (hm : Memory.wf out) :
    Memory.wf (encodePayload m L key out n) := by
  induction n with
  | zero => exact hm
  | succ n ih => exact storeBlock_wf ih

/-! ## The register window -/

/-- An access has a target exactly when R51 gives it meaning. -/
theorem regAt_eq_none_iff (width off : Nat) : regAt width off = none ↔ ¬ regAccessWf width off := by
  unfold regAt
  constructor
  · intro h
    split at h
    · next hb => simp only [Config.windowSize] at hb; omega
    · repeat' split at h
      all_goals cases h
  · intro h
    rw [if_pos]
    simp only [Config.windowSize]
    omega

/-- The target at a named register's offset is the register (R65). -/
theorem regAt_regOffset (r : RegName) : regAt 4 (regOffset r) = some (.reg r) := by
  cases r <;> decide

/-- The target at 0x800 + 4k is window word k (R46, R65): the access is legal and its offset lies above every register. -/
theorem regAt_window (k : Nat) (h : k < Config.wordsPerBlock) :
    regAt 4 (Config.blkbufOffset + 4 * k) = some (.window k) := by
  have hword : (Config.blkbufOffset + 4 * k - Config.blkbufOffset) / 4 = k := by omega
  simp only [Config.wordsPerBlock, Config.blockSize, Config.blkbufOffset] at h hword
  simp only [regAt, Config.windowSize, Config.blkbufOffset, hword]
  split_ifs <;> first | rfl | omega

end Sys2Proof.Machine
end

