-- ==== Sys2Proof/Laws/PerInstr.lean ====
section
/-! SUPPORT. Statements made for every instruction, one lemma per constructor. -/

/-- The family CommandWord: every command is well-formed, its word has RSV zero and its own opcode in OP (R60, R62), and
the decoder reads the command back from the word and from the opcode table's form of it. -/
def Sys2Proof.Laws.CommandWord.Statement (i : Sys2Proof.Instr) : Prop :=
  i.wf ∧ Sys2Proof.rsvField (Sys2Proof.encode i) = 0#24 ∧
    Sys2Proof.opField (Sys2Proof.encode i) = Sys2Proof.opcode i ∧
    Sys2Proof.decode (Sys2Proof.encode i) = .ok i ∧
    Sys2Proof.decodeTableWord 32 (Sys2Proof.encode i).toNat = some i

namespace Sys2Proof.Laws.CommandWord

theorem csumInit : Statement .csumInit := ⟨trivial, rfl, rfl, rfl, rfl⟩

theorem csumUpd : Statement .csumUpd := ⟨trivial, rfl, rfl, rfl, rfl⟩

theorem blkXform : Statement .blkXform := ⟨trivial, rfl, rfl, rfl, rfl⟩

theorem blkLoad : Statement .blkLoad := ⟨trivial, rfl, rfl, rfl, rfl⟩

theorem blkStore : Statement .blkStore := ⟨trivial, rfl, rfl, rfl, rfl⟩

theorem hdrWrite : Statement .hdrWrite := ⟨trivial, rfl, rfl, rfl, rfl⟩

theorem encode : Statement .encode := ⟨trivial, rfl, rfl, rfl, rfl⟩

end Sys2Proof.Laws.CommandWord
end

