-- ==== Sys2Proof/Laws/Run.lean ====
section
/-! SUPPORT. The laws of a run of the machine: its first step, and a run after a run. -/

namespace Sys2Proof.Machine

/-- A run of k + 1 steps whose first step answers t is a run of k steps from t. -/
theorem run_succ_of_next {s t : State} (k : Nat) (h : step s = .next t) :
    (core.run (k + 1) s : Outcome) = core.run k t := by
  have h' : core.step s = .next t := h
  have e := Host.Core.run.eq_2 core s k
  rw [h'] at e
  exact e

/-- A run whose first step is refused is refused. -/
theorem run_succ_of_refused {s : State} {r : Refusal} (k : Nat) (h : step s = .refused r) :
    (core.run (k + 1) s : Outcome) = .refused r := by
  have h' : core.step s = .refused r := h
  have e := Host.Core.run.eq_2 core s k
  rw [h'] at e
  exact e

/-- A run of j + k steps is a run of k steps from where the run of j steps ends. -/
theorem run_add_of_next {s t : State} (j k : Nat) (h : (core.run j s : Outcome) = .next t) :
    (core.run (j + k) s : Outcome) = core.run k t := by
  induction j generalizing s with
  | zero =>
    have hs : s = t := Host.Outcome.next.inj h
    rw [hs, Nat.zero_add]
  | succ j ih =>
    cases hstep : step s with
    | next u =>
      rw [run_succ_of_next j hstep] at h
      rw [Nat.succ_add, run_succ_of_next (j + k) hstep]
      exact ih h
    | fault r => cases r
    | refused r => rw [run_succ_of_refused j hstep] at h; cases h

end Sys2Proof.Machine
end

