-- ==== Sys2Proof/Tests/Slice0.lean ====
section
/-! SUPPORT. The tests: the well-formedness smoke test, decoding of words written out bit by bit from spec/30_encoding.md
R60 and R62, the spec's own vectors (spec/95_test_vectors.md) on single steps, and for every statement with hypotheses a
named witness that meets them. -/

namespace Sys2Proof.Tests

open Sys2Proof.Machine

/-! ## Helpers -/

/-- A block of one repeated byte. -/
def flatBlock (b : Byte) : Block := blockOf fun _ => b

/-- A block of zeros but for one byte. -/
def spotBlock (j : Nat) (b : Byte) : Block := blockOf fun n => if n = j then b else 0#8

/-- Reset with a zero block buffer, an input of the given length and an index. -/
def stateFor (len idx : Word) : State := { State.reset with blkbuf := flatBlock 0#8, len := len, blkidx := idx }

/-- The start of V53 and P2: IN = 48 65 6C 6C 6F, LEN = 5, KEY = 0x12345678. -/
def hello : State :=
  { stateFor 5#32 0#32 with
    key := 0x12345678#32
    inMem := [(0, 0x48#8), (1, 0x65#8), (2, 0x6C#8), (3, 0x6C#8), (4, 0x6F#8)] }

/-- A state whose next host action is the given one. -/
def withAction (s : State) (a : HostAction) : State := { s with pending := [a] }

/-- The state ENCODE leaves from hello: it completes, with N = 1. -/
def helloEncoded : State := finish (encodeResult hello 1)

/-- ENCODE completes from hello. -/
theorem exec_encode_hello : exec .encode hello = .next helloEncoded :=
  execEncode_of_backed (s := hello) (by decide) (by decide)

/-- ENCODE raises from a state with LEN = 0. -/
theorem exec_encode_of_len_zero {s : State} (h : s.len = 0#32) :
    exec .encode s = .next (raise .invalidInput { s with outlen := 0#32 }) := by
  have hv : ¬ ValidLen (lenOf s) := by rw [lenOf, h]; decide
  show execEncode s = _
  rw [execEncode, if_pos hv]

/-- The premises of BLK.LOAD's completion. -/
abbrev LoadPremises (s : State) : Prop :=
  ValidLen (lenOf s) ∧ idxOf s < nblk (lenOf s) ∧ min (lenOf s) (2048 * (idxOf s + 1)) ≤ s.inSize

/-- The premises of BLK.STORE's completion. -/
abbrev StorePremises (s : State) : Prop :=
  Memory.wf s.outMem ∧ ValidLen (lenOf s) ∧ idxOf s < nblk (lenOf s) ∧ 12 + 2048 * (idxOf s + 1) ≤ s.outSize

/-- The premises of ENCODE's completion. -/
abbrev EncodePremises (s : State) : Prop :=
  Memory.wf s.outMem ∧ ValidLen (lenOf s) ∧ lenOf s ≤ s.inSize ∧ 12 + padLen (lenOf s) ≤ s.outSize

/-- hello with other values in what ENCODE does not read. -/
def helloTwin : State := { hello with csum := 7#32, blkidx := 9#32, outlen := 3#32, outMem := [(1, 1#8)] }

/-- LEN = 2049, BLKIDX = 1 on a platform one byte too small for BLK.LOAD, BLK.STORE and ENCODE. -/
def cramped : State := { stateFor 2049#32 1#32 with inSize := 2048, outSize := 4107 }

/-! ## Well-formedness: an ill-formed term for each check -/

theorem test_wf_accepts_last_window_word : (HostAction.write 4 0xFFC 0#32).wf := by decide
theorem test_wf_refuses_narrow_write : ¬ (HostAction.write 2 0x008 0#32).wf := by decide
theorem test_wf_refuses_misaligned_write : ¬ (HostAction.write 4 0x00A 0#32).wf := by decide
theorem test_wf_refuses_write_past_window : ¬ (HostAction.write 4 0x1000 0#32).wf := by decide
theorem test_wf_refuses_narrow_read : ¬ (HostAction.read 1 0x004).wf := by decide
theorem test_wf_refuses_misaligned_read : ¬ (HostAction.read 4 0x802).wf := by decide
theorem test_wf_refuses_read_past_window : ¬ (HostAction.read 4 0x1000).wf := by decide
theorem test_wf_refuses_input_past_space : ¬ (HostAction.placeIn 0xFFFFFFFF [0#8, 0#8]).wf := by decide
theorem test_wf_refuses_output_past_space : ¬ (HostAction.fetchOut 0xFFFFFFFF 2).wf := by decide

/-! ## Decoding: RSV bits 31:8 zero, OP bits 7:0 (R60, R62) -/

theorem test_decode_csum_init : decode 0b00000000000000000000000000000001#32 = .ok .csumInit := by decide
theorem test_decode_csum_upd : decode 0b00000000000000000000000000000010#32 = .ok .csumUpd := by decide
theorem test_decode_blk_xform : decode 0b00000000000000000000000000010000#32 = .ok .blkXform := by decide
theorem test_decode_blk_load : decode 0b00000000000000000000000000100000#32 = .ok .blkLoad := by decide
theorem test_decode_blk_store : decode 0b00000000000000000000000000100001#32 = .ok .blkStore := by decide
theorem test_decode_hdr_write : decode 0b00000000000000000000000000100010#32 = .ok .hdrWrite := by decide
theorem test_decode_encode : decode 0b00000000000000000000000000101111#32 = .ok .encode := by decide

/-- V62: OP = 0x01 under a set RSV bit is no command. -/
theorem test_decode_refuses_reserved : decode 0b00000000000000000000000100000001#32 = .error .reservedNotZero := by decide

/-- V63. -/
theorem test_decode_refuses_unassigned :
    decode 0x00000003#32 = .error .unassignedOpcode ∧ decode 0x0000002E#32 = .error .unassignedOpcode ∧
      decode 0x000000FF#32 = .error .unassignedOpcode := by decide

theorem test_table_word_decodes : decodeTableWord 32 0x2F = some .encode ∧ decodeTableWord 8 0x12F = some .encode := by
  decide

/-- The word placed by the host runs as the first instruction after reset: HDR.WRITE leaves V59h in OUT. -/
theorem test_first_step_runs_the_placed_word :
    step (State.reset.withFetchWord 32 0x22) = exec .hdrWrite State.reset := rfl

/-! ## Checksum family -/

/-- V2. -/
theorem test_csum_init_discards (s : State) :
    exec .csumInit { s with csum := 0x12345678#32 } = .next { s with csum := 0xEF3D4323#32, result := 0#4 } := rfl

/-- V6: byte 5 lands in lane 1. -/
theorem test_csum_upd_lane : fold 0xEF3D4323#32 (spotBlock 5 0x80#8) = 0xEF3DC323#32 := by decide +kernel

/-- V5, the last byte of it: byte 2047 is covered, in lane 3. -/
theorem test_csum_upd_last_byte : fold 0xEF3D4323#32 (spotBlock 2047 0xDD#8) = 0x323D4323#32 := by decide +kernel

/-! ## Block transform -/

/-- V1, V20: bytes 0, 24, 25, 100 and 2047 of the golden block. -/
theorem test_xform_golden_bytes : ∃ t, exec .blkXform { hello with blkbuf := flatBlock 0#8 } = .next t ∧
    [0, 24, 25, 100, 2047].map (blkByte t.blkbuf) = [0x78#8, 0x38#8, 0x40#8, 0x09#8, 0x98#8] := by
  refine ⟨_, rfl, ?_⟩
  decide +kernel

/-! ## Container framer -/

/-- V53: the padded input of Hello: 48 65 6C 6C 6F 30 78 30 30 78, and 30 78 30 30 at the end of a 2048-byte block. -/
theorem test_load_pads : (List.range 10).map (blkByte (paddedBlock hello.inMem 5 0)) =
    [0x48#8, 0x65#8, 0x6C#8, 0x6C#8, 0x6F#8, 0x30#8, 0x78#8, 0x30#8, 0x30#8, 0x78#8] := by decide +kernel

/-- V59b: index 2 of two blocks raises InvalidInput and changes nothing else. -/
theorem test_load_raises_past_last_block (s : State) :
    exec .blkLoad { s with len := 2049#32, blkidx := 2#32 } =
      .next { s with len := 2049#32, blkidx := 2#32, result := 1#4 } := by
  refine if_pos ?_
  exact .inr (show nblk (2049#32).toNat ≤ (2#32).toNat by decide)

/-- V59a: BLK.STORE with LEN = 2049, BLKIDX = 1 puts BLKBUF[0] at 2060 and BLKBUF[2047] at 4107. -/
theorem test_store_places_block_one :
    let m := storeBlock [] 1 (flatBlock 0xA5#8)
    [2059, 2060, 4107, 4108].map (memRead m) = [0x00#8, 0xA5#8, 0xA5#8, 0x00#8] := by
  simp only [List.map, memRead_storeBlock [] 1 _ _ (by decide)]
  decide +kernel

/-- V59c. -/
theorem test_store_raises_past_last_block (s : State) :
    exec .blkStore { s with len := 2049#32, blkidx := 2#32 } =
      .next { s with len := 2049#32, blkidx := 2#32, result := 1#4 } := by
  refine if_pos ?_
  exact .inr (show nblk (2049#32).toNat ≤ (2#32).toNat by decide)

/-- V59i: 44 3D 2D 3F D4 C3 B2 A1 04 03 02 01. -/
theorem test_hdr_write_bytes : memReadBytes (storeHeader [] 0xA1B2C3D4#32 0x01020304#32) 0 12 =
    [0x44#8, 0x3D#8, 0x2D#8, 0x3F#8, 0xD4#8, 0xC3#8, 0xB2#8, 0xA1#8, 0x04#8, 0x03#8, 0x02#8, 0x01#8] := by decide

/-- HDR.WRITE needs twelve backed bytes of OUT (R44). -/
theorem test_hdr_write_refused_on_eleven_bytes (s : State) :
    exec .hdrWrite { s with outSize := 11 } = .refused .outBeyondPlatform := rfl

/-- V53: the Checksum of Hello under KEY 0x12345678. -/
theorem test_encode_checksum_of_hello : encodeAcc hello.inMem 5 0x12345678#32 1 = 0x5ABFE1F5#32 := by decide +kernel

/-- V59k: LEN = MAX_LEN + 1 raises and clears OUTLEN. -/
theorem test_encode_raises_past_max (s : State) (h : s.len = 0xFFFFF801#32) :
    exec .encode s = .next { s with outlen := 0#32, result := 1#4 } := by
  have hv : ¬ ValidLen (lenOf s) := by rw [lenOf, h]; decide
  show execEncode s = _
  rw [execEncode, if_pos hv]
  rfl

/-! ## The host's side -/

/-- V61, V64: an illegal word leaves 3 in STATUS, and CSUM.INIT after it 0. -/
theorem test_illegal_word_then_ok : ∃ t u, issueCommand 0x00000000#32 hello = .next t ∧ statusWord t = 3#32 ∧
    issueCommand 0x00000001#32 t = .next u ∧ statusWord u = 0#32 := ⟨_, _, rfl, by decide, rfl, by decide⟩

/-- V70: window word 0. -/
theorem test_window_word_bytes : (List.range 5).map (blkByte (blkSetWord (flatBlock 0xEE#8) 0 0x04030201#32)) =
    [0x01#8, 0x02#8, 0x03#8, 0x04#8, 0xEE#8] := by decide +kernel

/-- V72: rd CSUM after reset. -/
theorem test_reset_csum_reads_seed :
    step (withAction State.reset (rd .csum)) =
      .next { State.reset with replies := [.word 0xEF3D4323#32] } := rfl

/-- Edges of the register map: offsets 0x018, 0x01C, 0x7FC, 0x800 and 0xFFC (R65). -/
theorem test_register_map_edges :
    regAt 4 0x018 = some (.reg .outlen) ∧ regAt 4 0x01C = some .reserved ∧ regAt 4 0x7FC = some .reserved ∧
      regAt 4 0x800 = some (.window 0) ∧ regAt 4 0xFFC = some (.window 511) ∧ regAt 4 0x1000 = none := by decide

/-- V66, V67, V69: writes to STATUS, OUTLEN and 0x01C store nothing. -/
theorem test_ignored_writes (s : State) :
    step (withAction s (wr .status 0xFFFFFFFF#32)) = .next { s with pending := [] } ∧
      step (withAction s (wr .outlen 5#32)) = .next { s with pending := [] } ∧
      step (withAction s (.write 4 0x01C 5#32)) = .next { s with pending := [] } := ⟨rfl, rfl, rfl⟩

/-! ## Memory -/

/-- Writing what an unlisted address reads as removes the entry. -/
theorem test_memory_canonical : memWrite (memWrite [(2, 7#8)] 5 9#8) 2 0#8 = [(5, 9#8)] := by decide

/-! ## Witnesses: every statement with hypotheses has a state and operands that meet them -/

/-- DecodeComparesWithTheSevenWords: a listed pair, and words that are none of the seven next to listed ones. -/
theorem witness_DecodeComparesWithTheSevenWords :
    (0x0000002F#32, Instr.encode) ∈ Claims.commandWords ∧ 0x00000000#32 ∉ Claims.commandWords.map Prod.fst ∧
      0x00000030#32 ∉ Claims.commandWords.map Prod.fst ∧ 0x8000002F#32 ∉ Claims.commandWords.map Prod.fst := by decide

theorem witness_DecodeOfEncodeIsTheCommand : Instr.csumInit.wf ∧ Instr.encode.wf := by decide

/-- Both clauses: a pending command, and no pending action. -/
theorem witness_StepRunsTheDecodedCommand :
    (withAction hello (cmd .encode)).pending = [.write 4 0x000 0x0000002F#32] ∧
      decode 0x0000002F#32 = .ok .encode ∧ Instr.encode.wf ∧ hello.pending = [] := ⟨rfl, by decide, by decide, rfl⟩

theorem witness_IllegalWordRaisesIllegalCommand :
    (withAction hello (.write 4 0x000 0x0000012F#32)).pending = [.write 4 0x000 0x0000012F#32] ∧
      0x0000012F#32 ∉ Claims.commandWords.map Prod.fst := ⟨rfl, by decide⟩

/-- The reversed order; and bytes 0 and 5, and 2046 and 2047, of different lanes and values. -/
theorem witness_FoldOrderIndependent :
    (List.range 512).reverse.Perm (List.range 512) ∧
      (0 % 4 ≠ 5 % 4 ∧ blkByte (spotBlock 5 0xFF#8) 0 ≠ blkByte (spotBlock 5 0xFF#8) 5) ∧
      (2046 % 4 ≠ 2047 % 4 ∧ blkByte (spotBlock 2047 1#8) 2046 ≠ blkByte (spotBlock 2047 1#8) 2047) :=
  ⟨List.reverse_perm _, by decide +kernel, by decide +kernel⟩

theorem witness_FoldIsLaneParity : 0 < 4 ∧ 3 < 4 := by decide

/-- The lane clause at m = 3 and the two-byte clause at 0 and 4, and at 3 and 2047. -/
theorem witness_FoldCancelsItself :
    3 < 4 ∧ (0 < 2048 ∧ 4 < 2048 ∧ 0 ≠ 4 ∧ 0 % 4 = 4 % 4) ∧ (3 < 2048 ∧ 2047 < 2048 ∧ 3 ≠ 2047 ∧ 3 % 4 = 2047 % 4) := by
  decide

theorem witness_XformXorsTheMask : 0 < 2048 ∧ 2047 < 2048 := by decide

/-- n = 31 and i = 2047; the product stays below 2^32 at index 221698 and wraps at 221699. -/
theorem witness_XformIsWidthIndependent :
    (31 ≤ 31 ∧ 2047 < 2048) ∧ ¬ 2 ^ 32 ≤ 0x4BAD * (221698#32).toNat ∧ 2 ^ 32 ≤ 0x4BAD * (221699#32).toNat := by decide

/-- Keys that differ in bit 0; indices 0 and 1; and the twin index, which does not meet the hypothesis (R97). -/
theorem witness_XformIsAnInvolution :
    (0#32).extractLsb' 0 8 ≠ (1#32).extractLsb' 0 8 ∧
      (0x4BAD#32 * 0#32).extractLsb' 0 31 ≠ (0x4BAD#32 * 1#32).extractLsb' 0 31 ∧
      (0x4BAD#32 * 1#32).extractLsb' 0 31 = (0x4BAD#32 * 0x80000001#32).extractLsb' 0 31 := by decide

/-- Blocks that agree in byte 2047 and differ in byte 0, keys that agree in the low byte only. -/
theorem witness_XformBytesAreIndependent :
    2047 < 2048 ∧ blkByte (spotBlock 0 1#8) 2047 = blkByte (flatBlock 0#8) 2047 ∧
      blkByte (spotBlock 0 1#8) 0 ≠ blkByte (flatBlock 0#8) 0 ∧
      (0x12345678#32).extractLsb' 0 8 = (0x78#32).extractLsb' 0 8 := by decide +kernel

theorem witness_ChecksumIgnoresTheKey : ValidLen (lenOf hello) ∧ EncodeBacked hello := by decide

/-- Each clause: a multiple above L, a filler position, and the two ends of the valid lengths. -/
theorem witness_PaddedLengthIsTheSmallestMultiple :
    (4096 % 2048 = 0 ∧ 2049 ≤ 4096) ∧ (2049 ≤ 4095 ∧ 4095 < padLen 2049) ∧ (1 ≤ 1 ∧ 1 ≤ 0xFFFFF800) ∧
      (1 ≤ 0xFFFFF800 ∧ 0xFFFFF800 ≤ 0xFFFFF800) ∧ ¬ 12 + padLen 0xFFFFF801 < 2 ^ 32 := by decide

/-- The raise at LEN = 0, at MAX_LEN + 1 and at the first index past the last block. -/
theorem witness_BlkLoadLoadsThePaddedBlock_raises :
    ¬ ValidLen (lenOf (stateFor 0#32 0#32)) ∧ ¬ ValidLen (lenOf (stateFor 0xFFFFF801#32 0#32)) ∧
      nblk (lenOf (stateFor 2049#32 2#32)) ≤ idxOf (stateFor 2049#32 2#32) := by decide

/-- The load of the last block at LEN = 2049 with IN backed to exactly LEN, and at MAX_LEN. -/
theorem witness_BlkLoadLoadsThePaddedBlock_loads :
    LoadPremises { stateFor 2049#32 1#32 with inSize := 2049 } ∧ LoadPremises (stateFor 0xFFFFF800#32 0x1FFFFE#32) := by
  decide

/-- The raises of BLK.STORE are those of BLK.LOAD: LEN = 0, MAX_LEN + 1, an index past the last block. -/
theorem witness_BlkStoreStoresThePayloadBlock_raises :
    ¬ ValidLen (lenOf (stateFor 0#32 0#32)) ∧ ¬ ValidLen (lenOf (stateFor 0xFFFFF801#32 0#32)) ∧
      nblk (lenOf (stateFor 2048#32 1#32)) ≤ idxOf (stateFor 2048#32 1#32) := by decide

/-- V59a with OUT backed to exactly 4108 bytes, and the last block at MAX_LEN. -/
theorem witness_BlkStoreStoresThePayloadBlock_stores :
    StorePremises { stateFor 2049#32 1#32 with outSize := 4108 } ∧
      StorePremises (stateFor 0xFFFFF800#32 0x1FFFFE#32) := by decide

theorem witness_HdrWriteWritesTheHeader :
    Memory.wf { hello with outSize := 12, outMem := [(3, 9#8)] }.outMem ∧ 12 ≤ { hello with outSize := 12 }.outSize := by
  decide

/-- The raise at LEN = 0; LEN = 5 with exactly the memory it needs, and MAX_LEN on a full platform. -/
theorem witness_EncodeWritesTheContainer :
    ¬ ValidLen (lenOf (stateFor 0#32 0#32)) ∧ EncodePremises { hello with inSize := 5, outSize := 2060 } ∧
      EncodePremises (stateFor 0xFFFFF800#32 0#32) := by decide

theorem witness_EncodeFailureWritesNothingElse :
    lenOf (stateFor 0#32 0#32) = 0 ∧ 0xFFFFF800 < lenOf (stateFor 0xFFFFF801#32 0#32) := by decide

theorem witness_ContainerShape : exec .encode hello = .next helloEncoded ∧ helloEncoded.result = 0#4 :=
  ⟨exec_encode_hello, rfl⟩

/-- Both commands of the statement. -/
theorem witness_HeaderFieldByteOrders :
    (Memory.wf hello.outMem ∧ exec .encode hello = .next helloEncoded ∧ helloEncoded.result = 0#4) ∧
      ∃ t, exec .hdrWrite hello = .next t ∧ t.result = 0#4 :=
  ⟨⟨by decide, exec_encode_hello, rfl⟩, _, execHdrWrite_of_backed (s := hello) (by decide), rfl⟩

theorem witness_EncodeEqualsThePrimitiveSequence : ValidLen (lenOf hello) ∧ EncodeBacked hello := by decide

theorem witness_ContainerRoundTrip :
    Memory.wf hello.outMem ∧ exec .encode hello = .next helloEncoded ∧ helloEncoded.result = 0#4 ∧
      0 < nblk (lenOf hello) ∧
      ∃ u : State, u.blkbuf = (blockOf fun j => memRead helloEncoded.outMem (12 + 2048 * 0 + j)) ∧
        u.blkidx = BitVec.ofNat 32 0 ∧ u.key = hello.key :=
  ⟨by decide, exec_encode_hello, rfl, by decide,
    { hello with blkbuf := blockOf fun j => memRead helloEncoded.outMem (12 + 2048 * 0 + j) }, rfl, rfl, rfl⟩

theorem witness_HeaderOnlyContainer :
    (Memory.wf hello.outMem ∧ 12 ≤ hello.outSize) ∧ (stateFor 0#32 0#32).len = 0#32 := by decide

/-- Two states that differ in CSUM, BLKIDX, OUTLEN and past the input, and agree on LEN, KEY and the input. -/
theorem witness_ContainerDependsOnlyOnInputAndKey :
    Memory.wf hello.outMem ∧ Memory.wf helloTwin.outMem ∧ hello.len = helloTwin.len ∧ hello.key = helloTwin.key ∧
      (∀ p, p < lenOf hello → memRead hello.inMem p = memRead helloTwin.inMem p) ∧
      exec .encode hello = .next helloEncoded ∧
      exec .encode helloTwin = .next (finish (encodeResult helloTwin 1)) ∧ helloEncoded.result = 0#4 :=
  ⟨by decide, by decide, rfl, rfl, fun _ _ => rfl, exec_encode_hello,
    execEncode_of_backed (s := helloTwin) (by decide) (by decide), rfl⟩

/-- The frame's premise is met by every command, and by a command that raises. -/
theorem witness_CommandFrame :
    (∀ i : Instr, ∃ t, exec i hello = .next t ∧ t.result = 0#4) ∧
      ∃ t, exec .encode (stateFor 0#32 0#32) = .next t ∧ t.result ≠ 0#4 := by
  refine ⟨fun i => ?_, _, exec_encode_of_len_zero rfl, by decide⟩
  cases i with
  | csumInit => exact ⟨_, rfl, rfl⟩
  | csumUpd => exact ⟨_, execCsumUpd_eq _, rfl⟩
  | blkXform => exact ⟨_, rfl, rfl⟩
  | blkLoad => exact ⟨_, execBlkLoad_of_backed (s := hello) (by decide) (by decide), rfl⟩
  | blkStore => exact ⟨_, execBlkStore_of_backed (s := hello) (by decide) (by decide), rfl⟩
  | hdrWrite => exact ⟨_, execHdrWrite_of_backed (s := hello) (by decide), rfl⟩
  | encode => exact ⟨_, exec_encode_hello, rfl⟩

/-- States that differ in what ENCODE does not read; an address it stores to. -/
theorem witness_CommandsReadOnlyTheirOperands :
    Claims.ReadsAgree .encode hello helloTwin ∧
      exec .encode hello = .next helloEncoded ∧ helloEncoded.result = 0#4 ∧ Claims.StoresTo .encode hello 2059 :=
  ⟨⟨rfl, rfl, rfl, rfl, fun _ _ => rfl⟩, exec_encode_hello, rfl, by show 2059 < 12 + padLen (lenOf hello); decide⟩

/-- A command that completes, and one that raises InvalidInput. -/
theorem witness_InvalidInputExactlyWhen :
    exec .encode hello = .next helloEncoded ∧
      ∃ t, exec .encode (stateFor 0#32 0#32) = .next t ∧ t.result = 1#4 :=
  ⟨exec_encode_hello, _, exec_encode_of_len_zero rfl, rfl⟩

/-- An illegal word, and ENCODE with LEN = 0 (V59j). -/
theorem witness_ErrorEntryIsPrecise :
    (∃ t, issueCommand 0x0000012F#32 hello = .next t ∧ t.result ≠ 0#4) ∧
      ∃ t, issueCommand 0x0000002F#32 { stateFor 0#32 0#32 with outlen := 2060#32, csum := 5#32 } = .next t ∧
        t.result ≠ 0#4 :=
  ⟨⟨_, rfl, by decide⟩, _, exec_encode_of_len_zero rfl, by decide⟩

theorem witness_ReissuedCommandRaisesAgain :
    (∃ t, issueCommand 0x00000000#32 hello = .next t ∧ t.result ≠ 0#4) ∧
      ∃ t, issueCommand 0x0000002F#32 { stateFor 0#32 0#32 with outlen := 2060#32 } = .next t ∧ t.result ≠ 0#4 :=
  ⟨⟨_, rfl, by decide⟩, _, exec_encode_of_len_zero rfl, by decide⟩

/-- A refused state for each of the four commands, and a platform on which none is refused. -/
theorem witness_RefusedExactlyBeyondThePlatform :
    (ValidLen (lenOf cramped) ∧ idxOf cramped < nblk (lenOf cramped) ∧
      (2048 * idxOf cramped ≤ 2048 ∧ 2048 < 2048 * (idxOf cramped + 1) ∧ 2048 < lenOf cramped ∧ cramped.inSize ≤ 2048) ∧
      cramped.outSize < 12 + 2048 * (idxOf cramped + 1) ∧ cramped.inSize < lenOf cramped ∧
      cramped.outSize < 12 + padLen (lenOf cramped)) ∧
    { hello with outSize := 11 }.outSize < 12 ∧ hello.inSize = 2 ^ 32 ∧ hello.outSize = 2 ^ 32 := by decide

/-- Reads at every edge of the map: 0x018, 0x01C, 0x7FC, 0x800, 0xFFC. -/
theorem witness_RegisterWindowMap_reads : ∀ off ∈ [0x000, 0x004, 0x018, 0x01C, 0x7FC, 0x800, 0xFFC],
    (withAction hello (.read 4 off)).pending = [.read 4 off] ∧ off % 4 = 0 ∧ off ≤ 0xFFC := by
  intro off h
  exact ⟨rfl, by revert off; decide⟩

/-- Writes at every edge of the map below the window: 0x000, 0x004, 0x014, 0x018, 0x01C, 0x7FC. -/
theorem witness_RegisterWindowMap_writes : ∀ off ∈ [0x000, 0x004, 0x008, 0x00C, 0x010, 0x014, 0x018, 0x01C, 0x7FC],
    (withAction hello (.write 4 off 1#32)).pending = [.write 4 off 1#32] ∧ off % 4 = 0 ∧ off ≤ 0x7FC := by
  intro off h
  exact ⟨rfl, by revert off; decide⟩

/-- The first and the last window word, written and read. -/
theorem witness_WindowWordIsLittleEndian :
    (0 < 512 ∧ (withAction hello (wrBlkbuf 0 1#32)).pending = [.write 4 (0x800 + 4 * 0) 1#32]) ∧
      (511 < 512 ∧ (withAction hello (wrBlkbuf 511 1#32)).pending = [.write 4 (0x800 + 4 * 511) 1#32]) ∧
      (withAction hello (rdBlkbuf 0)).pending = [.read 4 (0x800 + 4 * 0)] ∧
      (withAction hello (rdBlkbuf 511)).pending = [.read 4 (0x800 + 4 * 511)] := by decide

/-- A refused access of each kind, and an access of the last window word, which is none of them. -/
theorem witness_BadHostAccessIsRefused :
    step (withAction hello (.read 2 0x000)) = .refused .badHostAccess ∧
      step (withAction hello (.write 4 0x002 0#32)) = .refused .badHostAccess ∧
      step (withAction hello (.read 4 0x1000)) = .refused .badHostAccess ∧
      ¬ (4 ≠ 4 ∨ 0xFFC % 4 ≠ 0 ∨ 0xFFC < 0xFFC) := ⟨rfl, rfl, rfl, by decide⟩

/-- Two bytes placed, and two read, at the very end of what the platform backs. -/
theorem witness_HostMemoryActions :
    Memory.wf hello.inMem ∧ (withAction hello (.placeIn 0xFFFFFFFE [1#8, 2#8])).pending = [.placeIn 0xFFFFFFFE [1#8, 2#8]] ∧
      0xFFFFFFFE + [1#8, 2#8].length ≤ hello.inSize ∧
      (withAction hello (.fetchOut 0xFFFFFFFE 2)).pending = [.fetchOut 0xFFFFFFFE 2] ∧ 0xFFFFFFFE + 2 ≤ hello.outSize :=
  ⟨by decide, rfl, by decide, rfl, by decide⟩

/-- A step that changes KEY, and an ENCODE that changes BLKIDX. -/
theorem witness_OnlyTheNamedWriters :
    (∃ t, step (withAction hello (wr .key 1#32)) = .next t ∧ t.key ≠ hello.key) ∧
      ∃ t, step (withAction helloTwin (cmd .encode)) = .next t ∧ t.blkidx ≠ helloTwin.blkidx :=
  ⟨⟨_, rfl, by decide⟩, _, execEncode_of_backed (s := { helloTwin with pending := [] }) (by decide) (by decide), by decide⟩

theorem witness_ResetStateIsUsable : 12 ≤ 12 ∧ 12 ≤ State.reset.outSize := by decide

theorem witness_StatusShowsTheLastResult : 0x00000000#32 ∉ Claims.commandWords.map Prod.fst := by decide

theorem witness_ResetLeavesTheTable : (withAction hello .reset).pending = [.reset] := rfl

/-- The invariant holds in a state that is not reset's, and a step leads on from it. -/
theorem witness_StepKeepsTheInvariant :
    StateInv (withAction { hello with result := 1#4, outMem := [(7, 7#8)] } (cmd .csumInit)) ∧
      ∃ t, step (withAction { hello with result := 1#4, outMem := [(7, 7#8)] } (cmd .csumInit)) = .next t :=
  ⟨⟨by decide, by decide, by decide, by decide, by decide, by decide, by decide, .inl rfl⟩, _, rfl⟩

/-- A state that is not reset's, with an action of every kind pending, on a full platform. -/
def busyHost : State :=
  { hello with pending := [cmd .encode, rd .status, .placeIn 0xFFFFFFFF [1#8], .fetchOut 0 2060, .reset] }

/-- The pending actions of busyHost are well-formed. -/
theorem busyHost_pending_wf : ∀ a, a ∈ busyHost.pending → a.wf := by
  simp only [busyHost, List.forall_mem_cons]
  exact ⟨(by decide : regAccessWf 4 0x000), (by decide : regAccessWf 4 0x004), by decide, by decide, trivial,
    fun _ h => nomatch h⟩

theorem witness_FullPlatformStepCompletes : FullPlatform busyHost ∧ ∀ a, a ∈ busyHost.pending → a.wf :=
  ⟨by decide, busyHost_pending_wf⟩

theorem witness_WellFormedActionsNeverStop : FullPlatform busyHost ∧ ∀ a, a ∈ busyHost.pending → a.wf :=
  ⟨by decide, busyHost_pending_wf⟩

end Sys2Proof.Tests
end

/-! What a step can do, said once, and the machine's invariant along it (O47). -/

namespace Sys2Proof.Machine

/-! ## What the host's side can do -/

/-- What a write to CMD can do (R26, R63). -/
theorem issueCommand_cases {w : Word} {s t : State} (h : issueCommand w s = .next t) :
    (∃ i, decode w = .ok i ∧ exec i s = .next t) ∨
    ((∃ e, decode w = .error e) ∧ t = raise .illegalCommand s) := by
  unfold issueCommand at h
  split at h
  · next i hd => exact .inl ⟨i, hd, h⟩
  · next e hd => exact .inr ⟨⟨e, hd⟩, (Host.Outcome.next.inj h).symm⟩

/-- A register write that answers reaches what stands at its offset (R51, R65). -/
theorem hostStep_write_cases {width off : Nat} {v : Word} {s t : State}
    (h : hostStep (.write width off v) s = .next t) :
    ∃ target, regAt width off = some target ∧ hostWrite target v s = .next t := by
  simp only [hostStep] at h
  split at h
  · next target ha => exact ⟨target, ha, h⟩
  · cases h

/-- A register read that answers only adds the word it reads to the replies (R51, R65). -/
theorem hostStep_read_cases {width off : Nat} {s t : State} (h : hostStep (.read width off) s = .next t) :
    ∃ target, regAt width off = some target ∧ t = addReply (.word (hostRead target s)) s := by
  simp only [hostStep] at h
  split at h
  · next target ha => exact ⟨target, ha, (Host.Outcome.next.inj h).symm⟩
  · cases h

/-- Placing bytes answers only where IN is backed, and writes those bytes (R44, R72). -/
theorem hostStep_placeIn_cases {off : Nat} {bytes : List Byte} {s t : State}
    (h : hostStep (.placeIn off bytes) s = .next t) :
    off + bytes.length ≤ s.inSize ∧ t = { s with inMem := memWriteBytes s.inMem off bytes } := by
  simp only [hostStep] at h
  split at h
  · cases h
  · next hb => exact ⟨Nat.le_of_not_lt hb, (Host.Outcome.next.inj h).symm⟩

/-- Reading bytes of OUT answers only where OUT is backed, and only adds them to the replies (R44, R72). -/
theorem hostStep_fetchOut_cases {off count : Nat} {s t : State} (h : hostStep (.fetchOut off count) s = .next t) :
    off + count ≤ s.outSize ∧ t = addReply (.bytes (memReadBytes s.outMem off count)) s := by
  simp only [hostStep] at h
  split at h
  · cases h
  · next hb => exact ⟨Nat.le_of_not_lt hb, (Host.Outcome.next.inj h).symm⟩

/-- A step waits, or does the first pending action after it is taken off the list (R56, R150). -/
theorem step_cases {s t : State} (h : step s = .next t) :
    (s.pending = [] ∧ t = s) ∨
    ∃ a rest, s.pending = a :: rest ∧ hostStep a { s with pending := rest } = .next t := by
  unfold step takeAction at h
  split at h
  · next hp => exact .inl ⟨hp, (Host.Outcome.next.inj h).symm⟩
  · next a rest hp => exact .inr ⟨a, rest, hp, h⟩

/-! ## The stores of the framer stay within what the platform backs (R44) -/

/-- A payload block ends where the next one begins (R49). -/
theorem payloadOffset_succ (b : Nat) : payloadOffset (b + 1) = payloadOffset b + 2048 := (Nat.add_assoc ..).symm

theorem storeBlock_within {m : Memory} {b size : Nat} {B : Block} (hm : Memory.within m size)
    (hb : payloadOffset (b + 1) ≤ size) : Memory.within (storeBlock m b B) size := by
  rw [payloadOffset_succ] at hb
  exact memWriteBytes_within hm (by rwa [Vector.length_toList])

theorem storeHeader_within {m : Memory} {key csum : Word} {size : Nat} (hm : Memory.within m size)
    (hb : Config.hdrLen ≤ size) : Memory.within (storeHeader m key csum) size :=
  memWriteBytes_within hm (by simpa [headerBytes, beBytes, leBytes] using hb)

theorem encodePayload_within {m out : Memory} {L n size : Nat} {key : Word} (hm : Memory.within out size)
    (hb : payloadOffset n ≤ size) : Memory.within (encodePayload m L key out n) size := by
  induction n with
  | zero => exact hm
  | succ n ih =>
    have hprev : payloadOffset n ≤ size := by rw [payloadOffset_succ] at hb; omega
    exact storeBlock_within (ih hprev) hb

/-! ## The length of a container -/

/-- A valid length has from 1 to 0x1FFFFF blocks (R105, R107). -/
theorem nblk_bounds {L : Nat} (h : ValidLen L) : 1 ≤ nblk L ∧ nblk L ≤ 0x1FFFFF := by
  simp only [ValidLen, Config.maxLen] at h
  simp only [nblk, Config.blockSize]
  omega

/-- The container of at most 0x1FFFFF blocks has a length that 32 bits hold, so OUTLEN does not wrap (R115). -/
theorem toNat_containerLength {n : Nat} (h : n ≤ 0x1FFFFF) :
    (BitVec.ofNat 32 (Config.hdrLen + Config.blockSize * n)).toNat = Config.hdrLen + Config.blockSize * n := by
  rw [BitVec.toNat_ofNat]
  refine Nat.mod_eq_of_lt ?_
  simp only [Config.hdrLen, Config.blockSize]
  omega

/-! ## What the invariant looks at, one update at a time -/

namespace StateInv

variable {s t : State}

/-- The invariant says nothing of the other registers, of BLKBUF and of the model's own lists. -/
theorem update_others (h : StateInv s) (key blkidx csum len : Word) (blkbuf : Block) (pending : List HostAction)
    (replies : List Reply) (resets : Nat) :
    StateInv { s with
      key := key, blkidx := blkidx, csum := csum, len := len, blkbuf := blkbuf
      pending := pending, replies := replies, resets := resets } :=
  { h with }

theorem update_inMem (h : StateInv s) {m : Memory} (hwf : Memory.wf m) (hin : Memory.within m s.inSize) :
    StateInv { s with inMem := m } :=
  { h with inWf := hwf, inWithin := hin }

theorem update_outMem (h : StateInv s) {m : Memory} (hwf : Memory.wf m) (hin : Memory.within m s.outSize) :
    StateInv { s with outMem := m } :=
  { h with outWf := hwf, outWithin := hin }

theorem update_outlen (h : StateInv s) {v : Word} (hv : OutlenLegal v) : StateInv { s with outlen := v } :=
  { h with outlenLegal := hv }

theorem update_result (h : StateInv s) {r : BitVec 4} (hr : r.toNat ≤ 3) : StateInv { s with result := r } :=
  { h with resultLe := hr }

theorem after_finish (h : StateInv s) : StateInv (finish s) := h.update_result (by decide)

theorem after_raise (h : StateInv s) (e : CmdError) : StateInv (raise e s) :=
  h.update_result (by cases e <;> decide)

theorem after_addReply (h : StateInv s) (r : Reply) : StateInv (addReply r s) := h.update_others ..

theorem after_resetBlock (h : StateInv s) : StateInv (resetBlock s) :=
  ((h.update_result (r := 0#4) (by decide)).update_outlen (v := 0#32) (.inl rfl)).update_others ..

/-- A successful ENCODE of n blocks that OUT backs (R112): payload and header stay in what is backed, and OUTLEN is the
container's length. -/
theorem after_encodeResult (h : StateInv s) {n : Nat} (hlow : 1 ≤ n) (hhigh : n ≤ 0x1FFFFF)
    (hb : payloadOffset n ≤ s.outSize) : StateInv (encodeResult s n) := by
  have hhdr : Config.hdrLen ≤ s.outSize := Nat.le_trans (Nat.le_add_right _ _) hb
  have hwf : Memory.wf (encodeResult s n).outMem := storeHeader_wf (encodePayload_wf h.outWf)
  have hin : Memory.within (encodeResult s n).outMem s.outSize :=
    storeHeader_within (encodePayload_within h.outWithin hb) hhdr
  have hlen : OutlenLegal (encodeResult s n).outlen := .inr ⟨n, hlow, hhigh, toNat_containerLength hhigh⟩
  exact ((h.update_outMem hwf hin).update_outlen hlen).update_others ..

/-! ## Every command, every host action and every step keeps it -/

theorem after_execBlkLoad (h : StateInv s) (he : execBlkLoad s = .next t) : StateInv t := by
  obtain ⟨-, rfl⟩ | ⟨-, -, rfl⟩ := execBlkLoad_cases he
  · exact h.after_raise _
  · exact after_finish (h.update_others ..)

theorem after_execBlkStore (h : StateInv s) (he : execBlkStore s = .next t) : StateInv t := by
  obtain ⟨-, rfl⟩ | ⟨-, hb, rfl⟩ := execBlkStore_cases he
  · exact h.after_raise _
  · exact (h.update_outMem (storeBlock_wf h.outWf) (storeBlock_within h.outWithin hb)).after_finish

theorem after_execHdrWrite (h : StateInv s) (he : execHdrWrite s = .next t) : StateInv t := by
  obtain ⟨hb, rfl⟩ := execHdrWrite_cases he
  exact (h.update_outMem (storeHeader_wf h.outWf) (storeHeader_within h.outWithin hb)).after_finish

theorem after_execEncode (h : StateInv s) (he : execEncode s = .next t) : StateInv t := by
  obtain ⟨-, rfl⟩ | ⟨hv, ⟨-, hb⟩, rfl⟩ := execEncode_cases he
  · exact (h.update_outlen (.inl rfl)).after_raise _
  · obtain ⟨hlow, hhigh⟩ := nblk_bounds hv
    exact (h.after_encodeResult hlow hhigh hb).after_finish

theorem after_exec (h : StateInv s) {i : Instr} (he : exec i s = .next t) : StateInv t := by
  cases i with
  | csumInit =>
    obtain rfl := Host.Outcome.next.inj ((execCsumInit_eq s).symm.trans he)
    exact after_finish (h.update_others ..)
  | csumUpd =>
    obtain rfl := Host.Outcome.next.inj ((execCsumUpd_eq s).symm.trans he)
    exact after_finish (h.update_others ..)
  | blkXform =>
    obtain rfl := Host.Outcome.next.inj ((execBlkXform_eq s).symm.trans he)
    exact after_finish (h.update_others ..)
  | blkLoad => exact h.after_execBlkLoad he
  | blkStore => exact h.after_execBlkStore he
  | hdrWrite => exact h.after_execHdrWrite he
  | encode => exact h.after_execEncode he

theorem after_issueCommand (h : StateInv s) {w : Word} (hc : issueCommand w s = .next t) : StateInv t := by
  obtain ⟨i, -, he⟩ | ⟨-, rfl⟩ := issueCommand_cases hc
  · exact h.after_exec he
  · exact h.after_raise _

theorem after_hostWrite (h : StateInv s) {target : RegTarget} {v : Word} (hw : hostWrite target v s = .next t) :
    StateInv t := by
  cases target with
  | reg r =>
    cases r with
    | cmd => exact h.after_issueCommand hw
    | status | outlen => exact Host.Outcome.next.inj hw ▸ h
    | key | blkidx | csum | len => exact Host.Outcome.next.inj hw ▸ h.update_others ..
  | reserved => exact Host.Outcome.next.inj hw ▸ h
  | window k => exact Host.Outcome.next.inj hw ▸ h.update_others ..

theorem after_hostStep (h : StateInv s) {a : HostAction} (ha : hostStep a s = .next t) : StateInv t := by
  cases a with
  | write width off v =>
    obtain ⟨target, -, hw⟩ := hostStep_write_cases ha
    exact h.after_hostWrite hw
  | read width off =>
    obtain ⟨target, -, rfl⟩ := hostStep_read_cases ha
    exact h.after_addReply _
  | placeIn off bytes =>
    obtain ⟨hb, rfl⟩ := hostStep_placeIn_cases ha
    exact h.update_inMem (memWriteBytes_wf _ _ _ h.inWf) (memWriteBytes_within h.inWithin hb)
  | fetchOut off count =>
    obtain ⟨-, rfl⟩ := hostStep_fetchOut_cases ha
    exact h.after_addReply _
  | reset => exact Host.Outcome.next.inj ha ▸ h.after_resetBlock

theorem after_step (h : StateInv s) (hs : step s = .next t) : StateInv t := by
  obtain ⟨-, rfl⟩ | ⟨a, rest, -, ha⟩ := step_cases hs
  · exact h
  · exact after_hostStep (h.update_others ..) ha

end StateInv

/-- Settles O47: whichever host action the step takes, and whichever command a write to CMD runs, keeps the invariant. -/
theorem stepKeepsTheInvariant : Obligations.StepKeepsTheInvariant := fun _ _ h hs => h.after_step hs

end Sys2Proof.Machine

/-! The layer of the state family (10_state.md): the decoder backwards, what a command may write, and what each command
stores to OUT, address by address. -/

namespace Sys2Proof.Machine

/-! ## The decoder backwards (R60, R62) -/

/-- A word is its RSV field above its OP field (R60). -/
theorem rsvField_append_opField (w : Word) : rsvField w ++ opField w = w :=
  (BitVec.extractLsb'_append_extractLsb'_eq_extractLsb' (start₁ := 0) (len₁ := 8) rfl).trans BitVec.extractLsb'_eq_self

theorem eq_opcode_of_commandOfOp {op : BitVec 8} {i : Instr} (h : commandOfOp op = .ok i) : op = opcode i := by
  unfold commandOfOp at h
  split_ifs at h <;> cases h <;> assumption

/-- The only word that decodes to a command is the command's own (R62). -/
theorem eq_encode_of_decode {w : Word} {i : Instr} (h : decode w = .ok i) : w = encode i := by
  unfold decode at h
  split_ifs at h with hrsv
  rw [← rsvField_append_opField w, hrsv, eq_opcode_of_commandOfOp h, encode]

/-- A command's word is one of the seven (R62). -/
theorem encode_mem_commandWords (i : Instr) : encode i ∈ Claims.commandWords.map Prod.fst := by
  cases i <;> decide

/-- A word that is none of the seven is illegal (R63). -/
theorem decode_eq_error_of_notMem {w : Word} (hw : w ∉ Claims.commandWords.map Prod.fst) :
    ∃ e, decode w = .error e := by
  cases hd : decode w with
  | error e => exact ⟨e, rfl⟩
  | ok i => exact absurd (eq_encode_of_decode hd ▸ encode_mem_commandWords i) hw

/-! ## The next step, by what is pending -/

theorem issueCommand_of_decode {w : Word} {i : Instr} (h : decode w = .ok i) (s : State) :
    issueCommand w s = exec i s := by
  simp only [issueCommand, h]

theorem issueCommand_of_illegal {w : Word} {e : DecodeError} (h : decode w = .error e) (s : State) :
    issueCommand w s = .next (raise .illegalCommand s) := by
  simp only [issueCommand, h]

/-- A write to CMD issues its word as a command (R26, R65). -/
theorem hostStep_wr_cmd (w : Word) (s : State) : hostStep (wr .cmd w) s = issueCommand w s := by
  simp only [wr, hostStep, regAt_regOffset, hostWrite]

theorem step_of_pending {s : State} {a : HostAction} {rest : List HostAction} (h : s.pending = a :: rest) :
    step s = hostStep a { s with pending := rest } := by
  simp only [step, takeAction, h]

theorem step_of_idle {s : State} (h : s.pending = []) : step s = .next s := by
  simp only [step, takeAction, h]

/-! ## What a command may write (R34) -/

/-- The write columns of R34: t is s but for the pieces of state the command may write. -/
def WritesOnly (i : Instr) (s t : State) : Prop :=
  match i with
  | .csumInit | .csumUpd => t = { s with csum := t.csum, result := t.result }
  | .blkXform | .blkLoad => t = { s with blkbuf := t.blkbuf, result := t.result }
  | .blkStore | .hdrWrite => t = { s with outMem := t.outMem, result := t.result }
  | .encode => t = { s with
      blkidx := t.blkidx, csum := t.csum, blkbuf := t.blkbuf, outMem := t.outMem, outlen := t.outlen
      result := t.result }

section Frame

variable {i : Instr} {s t : State}

theorem writesOnly_of_exec (h : exec i s = .next t) : WritesOnly i s t := by
  cases i with
  | csumInit =>
    obtain rfl := Host.Outcome.next.inj ((execCsumInit_eq s).symm.trans h)
    rfl
  | csumUpd =>
    obtain rfl := Host.Outcome.next.inj ((execCsumUpd_eq s).symm.trans h)
    rfl
  | blkXform =>
    obtain rfl := Host.Outcome.next.inj ((execBlkXform_eq s).symm.trans h)
    rfl
  | blkLoad => obtain ⟨-, rfl⟩ | ⟨-, -, rfl⟩ := execBlkLoad_cases h <;> rfl
  | blkStore => obtain ⟨-, rfl⟩ | ⟨-, -, rfl⟩ := execBlkStore_cases h <;> rfl
  | hdrWrite =>
    obtain ⟨-, rfl⟩ := execHdrWrite_cases h
    rfl
  | encode => obtain ⟨-, rfl⟩ | ⟨-, -, rfl⟩ := execEncode_cases h <;> rfl

/-- What no command writes: KEY, LEN, IN, the platform's sizes and the model's own fields. -/
theorem exec_frame (h : exec i s = .next t) :
    t = { s with
      blkidx := t.blkidx, csum := t.csum, blkbuf := t.blkbuf, outMem := t.outMem, outlen := t.outlen
      result := t.result } := by
  have hw := writesOnly_of_exec h
  cases i with
  | _ =>
    simp only [WritesOnly] at hw
    rw [hw]

theorem encode_of_blkidx_ne (h : exec i s = .next t) (hne : t.blkidx ≠ s.blkidx) : i = .encode := by
  have hw := writesOnly_of_exec h
  cases i with
  | encode => rfl
  | _ => exact absurd (congrArg State.blkidx hw) hne

theorem encode_of_outlen_ne (h : exec i s = .next t) (hne : t.outlen ≠ s.outlen) : i = .encode := by
  have hw := writesOnly_of_exec h
  cases i with
  | encode => rfl
  | _ => exact absurd (congrArg State.outlen hw) hne

theorem writer_of_csum_ne (h : exec i s = .next t) (hne : t.csum ≠ s.csum) :
    i = .csumInit ∨ i = .csumUpd ∨ i = .encode := by
  have hw := writesOnly_of_exec h
  cases i with
  | csumInit | csumUpd | encode => simp
  | _ => exact absurd (congrArg State.csum hw) hne

theorem writer_of_blkbuf_ne (h : exec i s = .next t) (hne : t.blkbuf ≠ s.blkbuf) :
    i = .blkXform ∨ i = .blkLoad ∨ i = .encode := by
  have hw := writesOnly_of_exec h
  cases i with
  | blkXform | blkLoad | encode => simp
  | _ => exact absurd (congrArg State.blkbuf hw) hne

theorem writer_of_outMem_ne (h : exec i s = .next t) (hne : t.outMem ≠ s.outMem) :
    i = .blkStore ∨ i = .hdrWrite ∨ i = .encode := by
  have hw := writesOnly_of_exec h
  cases i with
  | blkStore | hdrWrite | encode => simp
  | _ => exact absurd (congrArg State.outMem hw) hne

/-- A command that raises writes no byte of OUT (R135). -/
theorem outMem_of_result_ne (h : exec i s = .next t) (hr : t.result ≠ 0#4) : t.outMem = s.outMem := by
  by_contra hne
  obtain rfl | rfl | rfl := writer_of_outMem_ne h hne
  · obtain ⟨-, rfl⟩ | ⟨-, -, rfl⟩ := execBlkStore_cases h
    · exact hne rfl
    · exact hr rfl
  · obtain ⟨-, rfl⟩ := execHdrWrite_cases h
    exact hr rfl
  · obtain ⟨-, rfl⟩ | ⟨-, -, rfl⟩ := execEncode_cases h
    · exact hne rfl
    · exact hr rfl

end Frame

/-! ## What ENCODE stores to OUT, address by address (R111, R112) -/

/-- OUT after the first n payload blocks are stored: byte y - 12 of the payload where it lies in them. -/
theorem memRead_encodePayload (m out : Memory) (L : Nat) (key : Word) (n y : Nat) (hout : Memory.wf out) :
    memRead (encodePayload m L key out n) y =
      if 12 ≤ y ∧ y < 12 + 2048 * n then blkByte (payloadBlock m L key ((y - 12) / 2048)) ((y - 12) % 2048)
      else memRead out y := by
  induction n with
  | zero => rw [if_neg (by omega), encodePayload]
  | succ n ih =>
    rw [encodePayload, memRead_storeBlock _ _ _ _ (encodePayload_wf hout), ih]
    by_cases hlast : 12 + 2048 * n ≤ y ∧ y < 12 + 2048 * (n + 1)
    · have hblock : (y - 12) / 2048 = n := by omega
      have hbyte : (y - 12) % 2048 = y - (12 + 2048 * n) := by omega
      rw [if_pos hlast, if_pos (by omega), hblock, hbyte]
    · rw [if_neg hlast]
      exact if_congr (by omega) rfl rfl

/-- OUT after a successful ENCODE of n blocks: the header, the payload, and the rest as before. -/
theorem memRead_encodeResult_outMem (s : State) (n y : Nat) (hout : Memory.wf s.outMem) :
    memRead (encodeResult s n).outMem y =
      if y < 12 then (headerBytes s.key (encodeAcc s.inMem (lenOf s) s.key n)).getD y 0#8
      else if y < 12 + 2048 * n then
        blkByte (payloadBlock s.inMem (lenOf s) s.key ((y - 12) / 2048)) ((y - 12) % 2048)
      else memRead s.outMem y := by
  rw [encodeResult_outMem, memRead_storeHeader _ _ _ _ (encodePayload_wf hout), memRead_encodePayload _ _ _ _ _ _ hout]
  by_cases hhdr : y < 12
  · rw [if_pos hhdr, if_pos hhdr]
  · rw [if_neg hhdr, if_neg hhdr]
    exact if_congr (by omega) rfl rfl

/-- An address that the command does not store to reads as before (R41, R54). -/
theorem memRead_of_not_storesTo {i : Instr} {s t : State} {a : Nat} (h : exec i s = .next t)
    (hout : Memory.wf s.outMem) (ha : ¬ Claims.StoresTo i s a) : memRead t.outMem a = memRead s.outMem a := by
  by_cases heq : t.outMem = s.outMem
  · rw [heq]
  obtain rfl | rfl | rfl := writer_of_outMem_ne h heq
  · obtain ⟨-, rfl⟩ | ⟨-, -, rfl⟩ := execBlkStore_cases h
    · rfl
    · exact (memRead_storeBlock _ _ _ _ hout).trans (if_neg ha)
  · obtain ⟨-, rfl⟩ := execHdrWrite_cases h
    exact (memRead_storeHeader _ _ _ _ hout).trans (if_neg ha)
  · obtain ⟨-, rfl⟩ | ⟨-, -, rfl⟩ := execEncode_cases h
    · rfl
    · have hpast : ¬ a < 12 + 2048 * nblk (lenOf s) := ha
      rw [finish_outMem, memRead_encodeResult_outMem s _ _ hout, if_neg (by omega), if_neg hpast]

/-- Settles O31: the frame of R34, piece of state by piece of state. -/
theorem commandFrame : Obligations.CommandFrame := by
  intro i s t h
  have hf := exec_frame h
  refine ⟨(congrArg State.key hf :), (congrArg State.len hf :), (congrArg State.inMem hf :),
    (congrArg State.inSize hf :), (congrArg State.outSize hf :), (congrArg State.pending hf :),
    (congrArg State.replies hf :), (congrArg State.resets hf :),
    fun hi => ⟨?blkidx, ?outlen⟩, fun h1 h2 h3 => ?csum, fun h1 h2 h3 => ?blkbuf, fun h1 h2 h3 => ?outMem,
    fun hout a => memRead_of_not_storesTo h hout, outMem_of_result_ne h⟩
  case blkidx => exact of_not_not fun hne => hi (encode_of_blkidx_ne h hne)
  case outlen => exact of_not_not fun hne => hi (encode_of_outlen_ne h hne)
  case csum => exact of_not_not fun hne => by simpa [h1, h2, h3] using writer_of_csum_ne h hne
  case blkbuf => exact of_not_not fun hne => by simpa [h1, h2, h3] using writer_of_blkbuf_ne h hne
  case outMem => exact of_not_not fun hne => by simpa [h1, h2, h3] using writer_of_outMem_ne h hne

end Sys2Proof.Machine

namespace Sys2Proof.Machine

/-! ## What a command reads (R30, R34)

Each command run from a second state that agrees on what it reads raises as from the first, or writes the same values. -/

section Reads

variable {s t u : State}

theorem lenOf_congr (h : u.len = s.len) : lenOf u = lenOf s := congrArg BitVec.toNat h

theorem idxOf_congr (h : u.blkidx = s.blkidx) : idxOf u = idxOf s := congrArg BitVec.toNat h

theorem namesNoBlock_congr (hlen : u.len = s.len) (hidx : u.blkidx = s.blkidx) : NamesNoBlock u ↔ NamesNoBlock s := by
  rw [NamesNoBlock, NamesNoBlock, lenOf_congr hlen, idxOf_congr hidx]

/-- A padded block is a function of the input's L bytes (R106). -/
theorem paddedBlock_congr {m m' : Memory} {L : Nat} (h : ∀ p, p < L → memRead m' p = memRead m p) :
    paddedBlock m' L = paddedBlock m L := by
  funext b
  refine congrArg blockOf (funext fun j => ?_)
  unfold paddedIn
  split
  · next hp => exact h _ hp
  · rfl

theorem payloadBlock_congr {m m' : Memory} {L : Nat} (h : ∀ p, p < L → memRead m' p = memRead m p) (key : Word) :
    payloadBlock m' L key = payloadBlock m L key := by
  funext b
  rw [payloadBlock, payloadBlock, paddedBlock_congr h]

theorem encodeAcc_congr {m m' : Memory} {L : Nat} (h : ∀ p, p < L → memRead m' p = memRead m p) (key : Word) (n : Nat) :
    encodeAcc m' L key n = encodeAcc m L key n := by
  induction n with
  | zero => rfl
  | succ n ih => rw [encodeAcc, encodeAcc, ih, payloadBlock_congr h]

/-- The bytes of a stored block do not depend on what OUT held before. -/
theorem memRead_storeBlock_congr {m m' : Memory} {b a : Nat} {B : Block} (hm : Memory.wf m) (hm' : Memory.wf m')
    (ha : payloadOffset b ≤ a ∧ a < payloadOffset (b + 1)) :
    memRead (storeBlock m' b B) a = memRead (storeBlock m b B) a := by
  simp only [payloadOffset, Config.hdrLen, Config.blockSize] at ha
  rw [memRead_storeBlock _ _ _ _ hm', memRead_storeBlock _ _ _ _ hm, if_pos ha, if_pos ha]

/-- Nor do those of a stored header. -/
theorem memRead_storeHeader_congr {m m' : Memory} {a : Nat} {key csum : Word} (hm : Memory.wf m) (hm' : Memory.wf m')
    (ha : a < 12) : memRead (storeHeader m' key csum) a = memRead (storeHeader m key csum) a := by
  rw [memRead_storeHeader _ _ _ _ hm', memRead_storeHeader _ _ _ _ hm, if_pos ha, if_pos ha]

theorem execBlkLoad_raises (h : NamesNoBlock s) : execBlkLoad s = .next (raise .invalidInput s) := if_pos h

theorem execBlkStore_raises (h : NamesNoBlock s) : execBlkStore s = .next (raise .invalidInput s) := if_pos h

theorem execEncode_raises (h : ¬ ValidLen (lenOf s)) :
    execEncode s = .next (raise .invalidInput { s with outlen := 0#32 }) := if_pos h

theorem execBlkLoad_congr (hr : Claims.ReadsAgree .blkLoad s u) (h : execBlkLoad s = .next t) :
    (t = raise .invalidInput s ∧ execBlkLoad u = .next (raise .invalidInput u)) ∨
    ∃ B, t = finish { s with blkbuf := B } ∧ execBlkLoad u = .next (finish { u with blkbuf := B }) := by
  obtain ⟨hidx, hlen, hsize, hin⟩ := hr
  have hnames := namesNoBlock_congr hlen hidx
  obtain ⟨hn, rfl⟩ | ⟨hn, hb, rfl⟩ := execBlkLoad_cases h
  · exact .inl ⟨rfl, execBlkLoad_raises (hnames.2 hn)⟩
  · rw [← lenOf_congr hlen, ← idxOf_congr hidx, ← hsize] at hb
    refine .inr ⟨_, rfl, ?_⟩
    rw [execBlkLoad_of_backed (mt hnames.1 hn) hb, lenOf_congr hlen, idxOf_congr hidx, paddedBlock_congr hin]

theorem execBlkStore_congr (hr : Claims.ReadsAgree .blkStore s u) (h : execBlkStore s = .next t) :
    (t = raise .invalidInput s ∧ execBlkStore u = .next (raise .invalidInput u)) ∨
    (t = finish { s with outMem := storeBlock s.outMem (idxOf s) s.blkbuf } ∧
      execBlkStore u = .next (finish { u with outMem := storeBlock u.outMem (idxOf s) s.blkbuf })) := by
  obtain ⟨hidx, hlen, hbuf, hsize⟩ := hr
  have hnames := namesNoBlock_congr hlen hidx
  obtain ⟨hn, rfl⟩ | ⟨hn, hb, rfl⟩ := execBlkStore_cases h
  · exact .inl ⟨rfl, execBlkStore_raises (hnames.2 hn)⟩
  · rw [← idxOf_congr hidx, ← hsize] at hb
    refine .inr ⟨rfl, ?_⟩
    rw [execBlkStore_of_backed (mt hnames.1 hn) hb, idxOf_congr hidx, hbuf]

theorem execHdrWrite_congr (hr : Claims.ReadsAgree .hdrWrite s u) (h : execHdrWrite s = .next t) :
    t = finish { s with outMem := storeHeader s.outMem s.key s.csum } ∧
    execHdrWrite u = .next (finish { u with outMem := storeHeader u.outMem s.key s.csum }) := by
  obtain ⟨hkey, hcsum, hsize⟩ := hr
  obtain ⟨hb, rfl⟩ := execHdrWrite_cases h
  refine ⟨rfl, ?_⟩
  rw [execHdrWrite_of_backed (hsize ▸ hb), hkey, hcsum]

theorem execEncode_congr (hr : Claims.ReadsAgree .encode s u) (h : execEncode s = .next t) :
    (t = raise .invalidInput { s with outlen := 0#32 } ∧
      execEncode u = .next (raise .invalidInput { u with outlen := 0#32 })) ∨
    (t = finish (encodeResult s (nblk (lenOf s))) ∧
      execEncode u = .next (finish (encodeResult u (nblk (lenOf s))))) := by
  obtain ⟨-, hlen, hin, hout, -⟩ := hr
  obtain ⟨hv, rfl⟩ | ⟨hv, hb, rfl⟩ := execEncode_cases h
  · exact .inl ⟨rfl, execEncode_raises (by rwa [lenOf_congr hlen])⟩
  · have hbu : EncodeBacked u := by rwa [EncodeBacked, lenOf_congr hlen, hin, hout]
    refine .inr ⟨rfl, ?_⟩
    rw [execEncode_of_backed (by rwa [lenOf_congr hlen]) hbu, lenOf_congr hlen]

/-- CSUM after a successful ENCODE is a function of LEN, IN and KEY. -/
theorem encodeResult_csum_congr (hr : Claims.ReadsAgree .encode s u) (n : Nat) :
    (encodeResult u n).csum = (encodeResult s n).csum := by
  obtain ⟨hkey, hlen, -, -, hin⟩ := hr
  rw [encodeResult_csum, encodeResult_csum, hkey, lenOf_congr hlen, encodeAcc_congr hin]

/-- So is BLKBUF. -/
theorem encodeResult_blkbuf_congr (hr : Claims.ReadsAgree .encode s u) (n : Nat) :
    (encodeResult u n).blkbuf = (encodeResult s n).blkbuf := by
  obtain ⟨hkey, hlen, -, -, hin⟩ := hr
  rw [encodeResult_blkbuf, encodeResult_blkbuf, hkey, lenOf_congr hlen, payloadBlock_congr hin]

/-- So is every byte of the container, whatever OUT held before. -/
theorem memRead_encodeResult_congr (hr : Claims.ReadsAgree .encode s u) {n a : Nat} (hs : Memory.wf s.outMem)
    (hu : Memory.wf u.outMem) (ha : a < 12 + 2048 * n) :
    memRead (encodeResult u n).outMem a = memRead (encodeResult s n).outMem a := by
  obtain ⟨hkey, hlen, -, -, hin⟩ := hr
  rw [memRead_encodeResult_outMem u n a hu, memRead_encodeResult_outMem s n a hs, if_pos ha, if_pos ha, hkey,
    lenOf_congr hlen, encodeAcc_congr hin, payloadBlock_congr hin]

end Reads

/-- Settles O32: command by command, from the values it reads to the values it writes. -/
theorem commandsReadOnlyTheirOperands : Obligations.CommandsReadOnlyTheirOperands := by
  intro i s u t hr h
  cases i with
  | csumInit =>
    obtain rfl := Host.Outcome.next.inj ((execCsumInit_eq s).symm.trans h)
    exact ⟨_, execCsumInit_eq u, by simp [Claims.StoresTo]⟩
  | csumUpd =>
    obtain ⟨hcsum, hbuf⟩ := hr
    obtain rfl := Host.Outcome.next.inj ((execCsumUpd_eq s).symm.trans h)
    exact ⟨_, execCsumUpd_eq u, by simp [Claims.StoresTo, hcsum, hbuf]⟩
  | blkXform =>
    obtain ⟨hkey, hidx, hbuf⟩ := hr
    obtain rfl := Host.Outcome.next.inj ((execBlkXform_eq s).symm.trans h)
    exact ⟨_, execBlkXform_eq u, by simp [Claims.StoresTo, hkey, hidx, hbuf]⟩
  | blkLoad =>
    obtain ⟨rfl, hu⟩ | ⟨B, rfl, hu⟩ := execBlkLoad_congr hr h
    · exact ⟨_, hu, by simp [errorCode]⟩
    · exact ⟨_, hu, by simp [Claims.StoresTo]⟩
  | blkStore =>
    obtain ⟨rfl, hu⟩ | ⟨rfl, hu⟩ := execBlkStore_congr hr h
    · exact ⟨_, hu, by simp [errorCode]⟩
    · refine ⟨_, hu, rfl, by simp, by simp, by simp, by simp, fun _ hs hu a ha => ?_⟩
      exact memRead_storeBlock_congr hs hu ha
  | hdrWrite =>
    obtain ⟨rfl, hu⟩ := execHdrWrite_congr hr h
    refine ⟨_, hu, rfl, by simp, by simp, by simp, by simp, fun _ hs hu a ha => ?_⟩
    exact memRead_storeHeader_congr hs hu ha
  | encode =>
    obtain ⟨rfl, hu⟩ | ⟨rfl, hu⟩ := execEncode_congr hr h
    · exact ⟨_, hu, by simp [errorCode]⟩
    · exact ⟨_, hu, rfl, fun _ _ => encodeResult_csum_congr hr _, fun _ _ => encodeResult_blkbuf_congr hr _,
        fun _ => rfl, fun _ _ => rfl, fun _ hs hu _ ha => memRead_encodeResult_congr hr hs hu ha⟩

end Sys2Proof.Machine

namespace Sys2Proof.Machine

/-! ## What one host action changes (R21 to R28, R43) -/

/-- A named register stands at its own offset only (R65). -/
theorem access_of_regAt_reg {width off : Nat} {r : RegName} (h : regAt width off = some (.reg r)) :
    width = 4 ∧ off = regOffset r := by
  have hwf : regAccessWf width off := by
    by_contra hno
    rw [(regAt_eq_none_iff width off).2 hno] at h
    cases h
  refine ⟨hwf.1, ?_⟩
  unfold regAt at h
  split_ifs at h <;> cases h <;> assumption

/-- Window word k stands at 0x800 + 4k only, for the 512 words of BLKBUF (R46, R65). -/
theorem access_of_regAt_window {width off k : Nat} (h : regAt width off = some (.window k)) :
    width = 4 ∧ off = Config.blkbufOffset + 4 * k ∧ k < 512 := by
  unfold regAt at h
  split_ifs at h <;> cases h
  simp only [Config.windowSize, Config.blkbufOffset] at *
  omega

/-- What the action a can make of the state s. -/
inductive HostEffect (s : State) : HostAction → State → Prop
  /-- A command word written to CMD. -/
  | command {i : Instr} {t : State} (h : exec i s = .next t) : HostEffect s (cmd i) t
  /-- An illegal word written to CMD. -/
  | illegal (w : Word) : HostEffect s (wr .cmd w) (raise .illegalCommand s)
  | key (v : Word) : HostEffect s (wr .key v) { s with key := v }
  | blkidx (v : Word) : HostEffect s (wr .blkidx v) { s with blkidx := v }
  | csum (v : Word) : HostEffect s (wr .csum v) { s with csum := v }
  | len (v : Word) : HostEffect s (wr .len v) { s with len := v }
  | window {k : Nat} (hk : k < 512) (v : Word) :
    HostEffect s (wrBlkbuf k v) { s with blkbuf := blkSetWord s.blkbuf k v }
  | placeIn (off : Nat) (bytes : List Byte) :
    HostEffect s (.placeIn off bytes) { s with inMem := memWriteBytes s.inMem off bytes }
  | reset : HostEffect s .reset (resetBlock s)
  /-- A read, or a write that stores nothing: at most a reply is added. -/
  | quiet (a : HostAction) (replies : List Reply) : HostEffect s a { s with replies := replies }

theorem hostEffect_of_hostWrite {s t : State} {width off : Nat} {v : Word} {target : RegTarget}
    (ha : regAt width off = some target) (hw : hostWrite target v s = .next t) :
    HostEffect s (.write width off v) t := by
  cases target with
  | reg r =>
    obtain ⟨rfl, rfl⟩ := access_of_regAt_reg ha
    cases r with
    | cmd =>
      obtain ⟨i, hd, he⟩ | ⟨-, rfl⟩ := issueCommand_cases hw
      · exact eq_encode_of_decode hd ▸ .command he
      · exact .illegal v
    | key => exact Host.Outcome.next.inj hw ▸ .key v
    | blkidx => exact Host.Outcome.next.inj hw ▸ .blkidx v
    | csum => exact Host.Outcome.next.inj hw ▸ .csum v
    | len => exact Host.Outcome.next.inj hw ▸ .len v
    | status | outlen => exact Host.Outcome.next.inj hw ▸ .quiet _ _
  | reserved => exact Host.Outcome.next.inj hw ▸ .quiet _ _
  | window k =>
    obtain ⟨rfl, rfl, hk⟩ := access_of_regAt_window ha
    exact Host.Outcome.next.inj hw ▸ .window hk v

theorem hostEffect_of_hostStep {s t : State} {a : HostAction} (h : hostStep a s = .next t) : HostEffect s a t := by
  cases a with
  | write width off v =>
    obtain ⟨target, ha, hw⟩ := hostStep_write_cases h
    exact hostEffect_of_hostWrite ha hw
  | read width off =>
    obtain ⟨target, -, rfl⟩ := hostStep_read_cases h
    exact .quiet _ _
  | placeIn off bytes =>
    obtain ⟨-, rfl⟩ := hostStep_placeIn_cases h
    exact .placeIn off bytes
  | fetchOut off count =>
    obtain ⟨-, rfl⟩ := hostStep_fetchOut_cases h
    exact .quiet _ _
  | reset => exact Host.Outcome.next.inj h ▸ .reset

/-! ### The writers of each piece of state -/

namespace HostEffect

variable {s t : State} {a : HostAction}

theorem writer_of_key_ne (h : HostEffect s a t) (hne : t.key ≠ s.key) : a = .reset ∨ ∃ v, a = wr .key v := by
  cases h with
  | reset => exact .inl rfl
  | key v => exact .inr ⟨v, rfl⟩
  | command he => exact absurd (congrArg State.key (exec_frame he)) hne
  | _ => exact absurd rfl hne

theorem writer_of_len_ne (h : HostEffect s a t) (hne : t.len ≠ s.len) : a = .reset ∨ ∃ v, a = wr .len v := by
  cases h with
  | reset => exact .inl rfl
  | len v => exact .inr ⟨v, rfl⟩
  | command he => exact absurd (congrArg State.len (exec_frame he)) hne
  | _ => exact absurd rfl hne

theorem writer_of_blkidx_ne (h : HostEffect s a t) (hne : t.blkidx ≠ s.blkidx) :
    a = .reset ∨ (∃ v, a = wr .blkidx v) ∨ a = cmd .encode := by
  cases h with
  | reset => exact .inl rfl
  | blkidx v => exact .inr (.inl ⟨v, rfl⟩)
  | command he => exact .inr (.inr (congrArg cmd (encode_of_blkidx_ne he hne)))
  | _ => exact absurd rfl hne

theorem writer_of_csum_ne (h : HostEffect s a t) (hne : t.csum ≠ s.csum) :
    a = .reset ∨ (∃ v, a = wr .csum v) ∨ a = cmd .csumInit ∨ a = cmd .csumUpd ∨ a = cmd .encode := by
  cases h with
  | reset => exact .inl rfl
  | csum v => exact .inr (.inl ⟨v, rfl⟩)
  | command he => obtain rfl | rfl | rfl := Machine.writer_of_csum_ne he hne <;> simp
  | _ => exact absurd rfl hne

theorem writer_of_blkbuf_ne (h : HostEffect s a t) (hne : t.blkbuf ≠ s.blkbuf) :
    a = .reset ∨ (∃ k v, k < 512 ∧ a = wrBlkbuf k v) ∨ a = cmd .blkXform ∨ a = cmd .blkLoad ∨ a = cmd .encode := by
  cases h with
  | reset => exact .inl rfl
  | window hk v => exact .inr (.inl ⟨_, v, hk, rfl⟩)
  | command he => obtain rfl | rfl | rfl := Machine.writer_of_blkbuf_ne he hne <;> simp
  | _ => exact absurd rfl hne

theorem writer_of_result_ne (h : HostEffect s a t) (hne : t.result ≠ s.result) :
    a = .reset ∨ ∃ w, a = wr .cmd w := by
  cases h with
  | reset => exact .inl rfl
  | illegal w => exact .inr ⟨w, rfl⟩
  | command he => exact .inr ⟨_, rfl⟩
  | _ => exact absurd rfl hne

theorem writer_of_outlen_ne (h : HostEffect s a t) (hne : t.outlen ≠ s.outlen) : a = .reset ∨ a = cmd .encode := by
  cases h with
  | reset => exact .inl rfl
  | command he => exact .inr (congrArg cmd (encode_of_outlen_ne he hne))
  | _ => exact absurd rfl hne

theorem writer_of_inMem_ne (h : HostEffect s a t) (hne : t.inMem ≠ s.inMem) : ∃ off bs, a = .placeIn off bs := by
  cases h with
  | placeIn off bytes => exact ⟨off, bytes, rfl⟩
  | command he => exact absurd (congrArg State.inMem (exec_frame he)) hne
  | _ => exact absurd rfl hne

theorem writer_of_outMem_ne (h : HostEffect s a t) (hne : t.outMem ≠ s.outMem) :
    a = cmd .blkStore ∨ a = cmd .hdrWrite ∨ a = cmd .encode := by
  cases h with
  | command he => obtain rfl | rfl | rfl := Machine.writer_of_outMem_ne he hne <;> simp
  | _ => exact absurd rfl hne

/-- No action changes the platform's sizes (R14) or the actions that are still to come. -/
theorem frame (h : HostEffect s a t) : t.inSize = s.inSize ∧ t.outSize = s.outSize ∧ t.pending = s.pending := by
  cases h with
  | command he =>
    rw [exec_frame he]
    exact ⟨rfl, rfl, rfl⟩
  | _ => exact ⟨rfl, rfl, rfl⟩

end HostEffect

/-- Settles O41: the step is the effect of its action on the state with the action taken off the list. -/
theorem onlyTheNamedWriters : Obligations.OnlyTheNamedWriters := by
  intro s t a rest hp hs
  rw [step_of_pending hp] at hs
  have h := hostEffect_of_hostStep hs
  exact ⟨h.writer_of_key_ne, h.writer_of_len_ne, h.writer_of_blkidx_ne, h.writer_of_csum_ne, h.writer_of_blkbuf_ne,
    h.writer_of_result_ne, h.writer_of_outlen_ne, h.writer_of_inMem_ne, h.writer_of_outMem_ne, h.frame⟩

/-! ## STATUS, the running of commands, and reset -/

/-- STATUS is RESULT under 28 zero bits (R27). -/
theorem statusWord_eq_append (s : State) : statusWord s = 0#28 ++ s.result :=
  BitVec.setWidth_eq_append (w := 32) (by decide)

/-- Settles O42: STATUS shows RESULT alone, and CSUM.INIT completes from every state. -/
theorem statusShowsTheLastResult : Obligations.StatusShowsTheLastResult := by
  refine ⟨fun s => ?_, fun s w hw => ?_⟩
  · rw [statusWord_eq_append]
    exact ⟨BitVec.extractLsb'_append_eq_left, BitVec.extractLsb'_append_eq_right⟩
  · obtain ⟨e, he⟩ := decode_eq_error_of_notMem hw
    have hinit : decode 0x00000001#32 = .ok .csumInit := by decide
    exact ⟨_, _, issueCommand_of_illegal he s, rfl, issueCommand_of_decode hinit _, rfl⟩

/-- Settles O4: a pending write to CMD issues its word, which decodes to the command. -/
theorem stepRunsTheDecodedCommand : Obligations.StepRunsTheDecodedCommand := by
  refine ⟨fun s w i rest hp hd _ => ?_, fun s => step_of_idle⟩
  calc step s = hostStep (wr .cmd w) { s with pending := rest } := step_of_pending hp
    _ = issueCommand w { s with pending := rest } := hostStep_wr_cmd w _
    _ = exec i { s with pending := rest } := issueCommand_of_decode hd _

/-- Settles O44: the reset event is resetBlock, whose BLKBUF is the free bytes of log entry 3. -/
theorem resetLeavesTheTable : Obligations.ResetLeavesTheTable := by
  refine ⟨fun s rest hp => ⟨blkbufAfterReset (s.resets + 1), ?_⟩, rfl, rfl, rfl, rfl, rfl, rfl, rfl⟩
  exact step_of_pending hp

/-- Settles O46: both memories are empty after reset, the sizes are the largest ones, RESULT and OUTLEN are 0. -/
theorem resetMeetsTheInvariant : Obligations.ResetMeetsTheInvariant := by
  obtain ⟨hin, hout⟩ := reset_memories_wf
  exact {
    inWf := hin
    outWf := hout
    inWithin := fun _ hc => nomatch hc
    outWithin := fun _ hc => nomatch hc
    inSizeLe := Nat.le_refl _
    outSizeLe := Nat.le_refl _
    resultLe := Nat.zero_le _
    outlenLegal := .inl rfl }

end Sys2Proof.Machine

/-! The memory family (20_memory.md): what is refused and when, the header's bytes, the window onto BLKBUF, and a run as
its actions one after another. -/

namespace Sys2Proof.Machine

/-! ## What a command is refused for (R44) -/

/-- The command, not raising, would touch IN or OUT beyond what the platform backs. -/
def BeyondPlatform (i : Instr) (s : State) : Prop :=
  match i with
  | .csumInit | .csumUpd | .blkXform => False
  | .blkLoad => ¬ NamesNoBlock s ∧ s.inSize < loadEnd (lenOf s) (idxOf s)
  | .blkStore => ¬ NamesNoBlock s ∧ s.outSize < payloadOffset (idxOf s + 1)
  | .hdrWrite => s.outSize < Config.hdrLen
  | .encode => ValidLen (lenOf s) ∧ ¬ EncodeBacked s

section Refusals

variable {i : Instr} {s t : State} {r : Refusal}

theorem execBlkLoad_refused_cases (h : execBlkLoad s = .refused r) :
    BeyondPlatform .blkLoad s ∧ r = .inBeyondPlatform := by
  by_cases hn : NamesNoBlock s
  · cases (execBlkLoad_raises hn).symm.trans h
  · rw [execBlkLoad, if_neg hn] at h
    split at h
    · next hb => exact ⟨⟨hn, hb⟩, (Host.Outcome.refused.inj h).symm⟩
    · cases h

theorem execBlkStore_refused_cases (h : execBlkStore s = .refused r) :
    BeyondPlatform .blkStore s ∧ r = .outBeyondPlatform := by
  by_cases hn : NamesNoBlock s
  · cases (execBlkStore_raises hn).symm.trans h
  · rw [execBlkStore, if_neg hn] at h
    split at h
    · next hb => exact ⟨⟨hn, hb⟩, (Host.Outcome.refused.inj h).symm⟩
    · cases h

theorem execHdrWrite_refused_cases (h : execHdrWrite s = .refused r) :
    BeyondPlatform .hdrWrite s ∧ r = .outBeyondPlatform := by
  unfold execHdrWrite at h
  split at h
  · next hb => exact ⟨hb, (Host.Outcome.refused.inj h).symm⟩
  · cases h

theorem execEncode_refused_cases (h : execEncode s = .refused r) :
    BeyondPlatform .encode s ∧ (r = .inBeyondPlatform ∨ r = .outBeyondPlatform) := by
  by_cases hv : ValidLen (lenOf s)
  · have hb : ¬ EncodeBacked s := fun hb => by cases (execEncode_of_backed hv hb).symm.trans h
    rw [execEncode, if_neg (not_not.2 hv), if_neg (by decide)] at h
    refine ⟨⟨hv, hb⟩, ?_⟩
    split at h
    · exact .inl (Host.Outcome.refused.inj h).symm
    · split at h
      · exact .inr (Host.Outcome.refused.inj h).symm
      · cases h
  · cases (execEncode_raises hv).symm.trans h

/-- A command is refused for the platform's memory only, never as a bad host access. -/
theorem exec_refused_cases (h : exec i s = .refused r) : BeyondPlatform i s ∧ r ≠ .badHostAccess := by
  cases i with
  | csumInit => cases (execCsumInit_eq s).symm.trans h
  | csumUpd => cases (execCsumUpd_eq s).symm.trans h
  | blkXform => cases (execBlkXform_eq s).symm.trans h
  | blkLoad =>
    obtain ⟨hb, rfl⟩ := execBlkLoad_refused_cases h
    exact ⟨hb, nofun⟩
  | blkStore =>
    obtain ⟨hb, rfl⟩ := execBlkStore_refused_cases h
    exact ⟨hb, nofun⟩
  | hdrWrite =>
    obtain ⟨hb, rfl⟩ := execHdrWrite_refused_cases h
    exact ⟨hb, nofun⟩
  | encode => obtain ⟨hb, rfl | rfl⟩ := execEncode_refused_cases h <;> exact ⟨hb, nofun⟩

/-- A command that answers touches only what the platform backs. -/
theorem not_beyondPlatform_of_exec (h : exec i s = .next t) : ¬ BeyondPlatform i s := by
  cases i with
  | csumInit | csumUpd | blkXform => exact id
  | blkLoad =>
    rintro ⟨hn, hb⟩
    obtain ⟨hraise, -⟩ | ⟨-, hle, -⟩ := execBlkLoad_cases h
    · exact hn hraise
    · exact Nat.not_lt.2 hle hb
  | blkStore =>
    rintro ⟨hn, hb⟩
    obtain ⟨hraise, -⟩ | ⟨-, hle, -⟩ := execBlkStore_cases h
    · exact hn hraise
    · exact Nat.not_lt.2 hle hb
  | hdrWrite =>
    obtain ⟨hle, -⟩ := execHdrWrite_cases h
    exact Nat.not_lt.2 hle
  | encode =>
    rintro ⟨hv, hb⟩
    obtain ⟨hraise, -⟩ | ⟨-, hle, -⟩ := execEncode_cases h
    · exact hraise hv
    · exact hb hle

/-- An outcome that is not refused is a next state, since there is no fault. -/
theorem exists_next_of_not_refused {o : Outcome} (h : ∀ r, o ≠ .refused r) : ∃ t, o = .next t := by
  cases o with
  | next t => exact ⟨t, rfl⟩
  | fault f => cases f
  | refused r => exact absurd rfl (h r)

theorem exists_exec_next_of_not_beyondPlatform (h : ¬ BeyondPlatform i s) : ∃ t, exec i s = .next t :=
  exists_next_of_not_refused fun _ hr => h (exec_refused_cases hr).1

theorem exec_refused_iff : (∃ r, exec i s = .refused r) ↔ BeyondPlatform i s := by
  refine ⟨fun ⟨_, h⟩ => (exec_refused_cases h).1, fun hb => ?_⟩
  by_contra hno
  obtain ⟨t, ht⟩ := exists_next_of_not_refused (not_exists.1 hno)
  exact not_beyondPlatform_of_exec ht hb

end Refusals

/-! ### In the spec's own bytes -/

theorem not_namesNoBlock_iff {s : State} : ¬ NamesNoBlock s ↔ ValidLen (lenOf s) ∧ idxOf s < nblk (lenOf s) := by
  rw [not_or, not_not, Nat.not_le]

/-- A block of the padded input begins below the input's length (R105). -/
theorem blockStart_lt_of_lt_nblk {L b : Nat} (h : b < nblk L) : 2048 * b < L := by
  simp only [nblk, Config.blockSize] at h
  omega

/-- IN is too small for a block exactly when the block holds an input byte at or past its size: the last input byte of
the block is one. -/
theorem lt_loadEnd_iff {L b size : Nat} (h : b < nblk L) :
    size < loadEnd L b ↔ ∃ p, 2048 * b ≤ p ∧ p < 2048 * (b + 1) ∧ p < L ∧ size ≤ p := by
  have hstart := blockStart_lt_of_lt_nblk h
  simp only [loadEnd, Config.blockSize, lt_min_iff]
  constructor
  · rintro ⟨hL, hend⟩
    exact ⟨min L (2048 * (b + 1)) - 1, by omega⟩
  · rintro ⟨p, -, hend, hL, hsize⟩
    exact ⟨hsize.trans_lt hL, hsize.trans_lt hend⟩

theorem beyondPlatform_blkLoad_iff {s : State} : BeyondPlatform .blkLoad s ↔
    ValidLen (lenOf s) ∧ idxOf s < nblk (lenOf s) ∧
      ∃ p, 2048 * idxOf s ≤ p ∧ p < 2048 * (idxOf s + 1) ∧ p < lenOf s ∧ s.inSize ≤ p := by
  rw [BeyondPlatform, not_namesNoBlock_iff, and_assoc]
  exact and_congr_right fun _ => and_congr_right lt_loadEnd_iff

theorem beyondPlatform_blkStore_iff {s : State} : BeyondPlatform .blkStore s ↔
    ValidLen (lenOf s) ∧ idxOf s < nblk (lenOf s) ∧ s.outSize < 12 + 2048 * (idxOf s + 1) := by
  rw [BeyondPlatform, not_namesNoBlock_iff, and_assoc, payloadOffset]

theorem beyondPlatform_encode_iff {s : State} : BeyondPlatform .encode s ↔
    ValidLen (lenOf s) ∧ (s.inSize < lenOf s ∨ s.outSize < 12 + padLen (lenOf s)) := by
  rw [BeyondPlatform, EncodeBacked, not_and_or, Nat.not_le, Nat.not_le]

/-! ### On a full platform -/

/-- The container of a valid length fits in OUT's 2^32 offsets (R105). -/
theorem payloadOffset_le_spaceSize {n : Nat} (h : n ≤ 0x1FFFFF) : payloadOffset n ≤ Config.spaceSize := by
  simp only [payloadOffset, Config.hdrLen, Config.blockSize, Config.spaceSize]
  omega

theorem not_beyondPlatform_of_fullPlatform {s : State} (hf : FullPlatform s) (i : Instr) : ¬ BeyondPlatform i s := by
  obtain ⟨hin, hout⟩ := hf
  have hlen : lenOf s ≤ Config.spaceSize := Nat.le_of_lt s.len.isLt
  cases i with
  | csumInit | csumUpd | blkXform => exact id
  | blkLoad =>
    rintro ⟨-, hb⟩
    exact Nat.not_lt.2 ((Nat.min_le_left ..).trans hlen) (hin ▸ hb)
  | blkStore =>
    rintro ⟨hn, hb⟩
    obtain ⟨hv, hidx⟩ := not_namesNoBlock_iff.1 hn
    have hn : idxOf s + 1 ≤ 0x1FFFFF := Nat.le_trans hidx (nblk_bounds hv).2
    exact Nat.not_lt.2 (payloadOffset_le_spaceSize hn) (hout ▸ hb)
  | hdrWrite =>
    simp only [BeyondPlatform, hout, Config.hdrLen, Config.spaceSize]
    omega
  | encode =>
    rintro ⟨hv, hb⟩
    exact hb ⟨hin ▸ hlen, hout ▸ payloadOffset_le_spaceSize (nblk_bounds hv).2⟩

/-- Settles O36: command by command, the model's test of what is backed is the rule's own. -/
theorem refusedExactlyBeyondThePlatform : Obligations.RefusedExactlyBeyondThePlatform := by
  refine ⟨fun i s => ?_, fun i s hin hout => ?_⟩
  · rw [exec_refused_iff]
    cases i with
    | csumInit | csumUpd | blkXform => simp [BeyondPlatform]
    | blkLoad => simp [beyondPlatform_blkLoad_iff]
    | blkStore => simp [beyondPlatform_blkStore_iff]
    | hdrWrite => simp [BeyondPlatform]
    | encode => simp [beyondPlatform_encode_iff]
  · exact exists_exec_next_of_not_beyondPlatform (not_beyondPlatform_of_fullPlatform ⟨hin, hout⟩ i)

/-! ## What a host action is refused for (R44, R51) -/

/-- Why the action a can be refused in the state s, and under which name. -/
inductive HostRefusal (s : State) : HostAction → Refusal → Prop
  | write {width off : Nat} (h : ¬ regAccessWf width off) (v : Word) :
    HostRefusal s (.write width off v) .badHostAccess
  | read {width off : Nat} (h : ¬ regAccessWf width off) : HostRefusal s (.read width off) .badHostAccess
  /-- A legal access to CMD whose command is refused. -/
  | command {i : Instr} {r : Refusal} (h : exec i s = .refused r) : HostRefusal s (cmd i) r
  | placeIn {off : Nat} {bytes : List Byte} (h : s.inSize < off + bytes.length) :
    HostRefusal s (.placeIn off bytes) .inBeyondPlatform
  | fetchOut {off count : Nat} (h : s.outSize < off + count) :
    HostRefusal s (.fetchOut off count) .outBeyondPlatform

theorem issueCommand_refused_cases {w : Word} {s : State} {r : Refusal} (h : issueCommand w s = .refused r) :
    ∃ i, decode w = .ok i ∧ exec i s = .refused r := by
  cases hd : decode w with
  | ok i => exact ⟨i, rfl, (issueCommand_of_decode hd s).symm.trans h⟩
  | error e => cases (issueCommand_of_illegal hd s).symm.trans h

theorem hostRefusal_of_hostWrite {s : State} {width off : Nat} {v : Word} {target : RegTarget} {r : Refusal}
    (ha : regAt width off = some target) (hw : hostWrite target v s = .refused r) :
    HostRefusal s (.write width off v) r := by
  cases target with
  | reg reg =>
    obtain ⟨rfl, rfl⟩ := access_of_regAt_reg ha
    cases reg with
    | cmd =>
      obtain ⟨i, hd, he⟩ := issueCommand_refused_cases hw
      exact eq_encode_of_decode hd ▸ .command he
    | status | key | blkidx | csum | len | outlen => cases hw
  | reserved | window => cases hw

theorem hostRefusal_of_hostStep {s : State} {a : HostAction} {r : Refusal} (h : hostStep a s = .refused r) :
    HostRefusal s a r := by
  cases a with
  | write width off v =>
    simp only [hostStep] at h
    split at h
    · next ha => exact hostRefusal_of_hostWrite ha h
    · next ha => exact Host.Outcome.refused.inj h ▸ .write ((regAt_eq_none_iff ..).1 ha) v
  | read width off =>
    simp only [hostStep] at h
    split at h
    · cases h
    · next ha => exact Host.Outcome.refused.inj h ▸ .read ((regAt_eq_none_iff ..).1 ha)
  | placeIn off bytes =>
    simp only [hostStep] at h
    split at h
    · next hb => exact Host.Outcome.refused.inj h ▸ .placeIn hb
    · cases h
  | fetchOut off count =>
    simp only [hostStep] at h
    split at h
    · next hb => exact Host.Outcome.refused.inj h ▸ .fetchOut hb
    · cases h
  | reset => cases h

theorem hostStep_write_of_regAt {width off : Nat} {target : RegTarget} (h : regAt width off = some target) (v : Word)
    (s : State) : hostStep (.write width off v) s = hostWrite target v s := by
  simp only [hostStep, h]

theorem hostStep_read_of_regAt {width off : Nat} {target : RegTarget} (h : regAt width off = some target) (s : State) :
    hostStep (.read width off) s = .next (addReply (.word (hostRead target s)) s) := by
  simp only [hostStep, h]

theorem hostStep_write_refused {width off : Nat} (h : ¬ regAccessWf width off) (v : Word) (s : State) :
    hostStep (.write width off v) s = .refused .badHostAccess := by
  simp only [hostStep, (regAt_eq_none_iff width off).2 h]

theorem hostStep_read_refused {width off : Nat} (h : ¬ regAccessWf width off) (s : State) :
    hostStep (.read width off) s = .refused .badHostAccess := by
  simp only [hostStep, (regAt_eq_none_iff width off).2 h]

/-- A refused step is its first pending action refused. -/
theorem step_refused_cases {s : State} {r : Refusal} (h : step s = .refused r) :
    ∃ a rest, s.pending = a :: rest ∧ HostRefusal { s with pending := rest } a r := by
  cases hp : s.pending with
  | nil => cases (step_of_idle hp).symm.trans h
  | cons a rest => exact ⟨a, rest, rfl, hostRefusal_of_hostStep ((step_of_pending hp).symm.trans h)⟩

theorem not_regAccessWf_iff {width off : Nat} :
    ¬ regAccessWf width off ↔ width ≠ 4 ∨ off % 4 ≠ 0 ∨ 0xFFC < off := by
  rw [regAccessWf, not_and_or, not_and_or, Nat.not_le]

/-- Settles O39: of the refusals only those of an ill-formed register access have that name. -/
theorem badHostAccessIsRefused : Obligations.BadHostAccessIsRefused := by
  intro s
  simp only [← not_regAccessWf_iff]
  constructor
  · intro h
    obtain ⟨a, rest, hp, hr⟩ := step_refused_cases h
    cases hr with
    | write hbad v => exact ⟨_, _, rest, .inl ⟨v, hp⟩, hbad⟩
    | read hbad => exact ⟨_, _, rest, .inr hp, hbad⟩
    | command he => exact absurd rfl (exec_refused_cases he).2
  · rintro ⟨width, off, rest, ⟨v, hp⟩ | hp, hbad⟩
    · exact (step_of_pending hp).trans (hostStep_write_refused hbad v _)
    · exact (step_of_pending hp).trans (hostStep_read_refused hbad _)

/-! ## A full platform under well-formed actions -/

/-- No well-formed action is refused on a full platform: whatever it touches lies in the 2^32 offsets that are backed. -/
theorem not_hostRefusal_of_wf {s : State} {a : HostAction} (hf : FullPlatform s) (ha : a.wf) (r : Refusal) :
    ¬ HostRefusal s a r := by
  intro hr
  cases hr with
  | write hbad v => exact hbad ha
  | read hbad => exact hbad ha
  | command he => exact not_beyondPlatform_of_fullPlatform hf _ (exec_refused_cases he).1
  | placeIn hb => exact Nat.not_lt.2 ha (hf.1 ▸ hb)
  | fetchOut hb => exact Nat.not_lt.2 ha (hf.2 ▸ hb)

theorem exists_hostStep_next_of_wf {s : State} {a : HostAction} (hf : FullPlatform s) (ha : a.wf) :
    ∃ t, hostStep a s = .next t :=
  exists_next_of_not_refused fun r h => not_hostRefusal_of_wf hf ha r (hostRefusal_of_hostStep h)

/-- Settles O49: the step waits, or its action is not refused and changes neither the sizes nor the rest of the list. -/
theorem fullPlatformStepCompletes : Obligations.FullPlatformStepCompletes := by
  intro s hf hwf
  cases hp : s.pending with
  | nil => exact ⟨s, step_of_idle hp, hf, hwf⟩
  | cons a rest =>
    rw [hp, List.forall_mem_cons] at hwf
    obtain ⟨ha, hrest⟩ := hwf
    obtain ⟨t, ht⟩ := exists_hostStep_next_of_wf (s := { s with pending := rest }) hf ha
    obtain ⟨hin, hout, hpend⟩ := (hostEffect_of_hostStep ht).frame
    refine ⟨t, (step_of_pending hp).trans ht, ⟨hin.trans hf.1, hout.trans hf.2⟩, ?_⟩
    rwa [hpend]

/-- Settles O48, by induction on the number of steps. -/
theorem wellFormedActionsNeverStop : Obligations.WellFormedActionsNeverStop := by
  intro k
  induction k with
  | zero => exact fun s _ _ => ⟨s, rfl⟩
  | succ k ih =>
    intro s hf hwf
    obtain ⟨t, hs, hft, hwft⟩ := fullPlatformStepCompletes s hf hwf
    obtain ⟨u, hu⟩ := ih t hft hwft
    exact ⟨u, (run_succ_of_next k hs).trans hu⟩

/-! ## A run, action by action (R52, R56) -/

/-- The outcome with another list of actions still to come in its next state. -/
def withPending (q : List HostAction) (o : Outcome) : Outcome :=
  match o with
  | .next t => .next { t with pending := q }
  | .fault f => .fault f
  | .refused r => .refused r

theorem exec_withPending (i : Instr) (s : State) (q : List HostAction) :
    exec i { s with pending := q } = withPending q (exec i s) := by
  cases i with
  | csumInit | blkXform => rfl
  | csumUpd => exact (execCsumUpd_eq _).trans (congrArg (withPending q) (execCsumUpd_eq s)).symm
  | blkLoad => simp only [exec, execBlkLoad, apply_ite (withPending q)]; rfl
  | blkStore => simp only [exec, execBlkStore, apply_ite (withPending q)]; rfl
  | hdrWrite => simp only [exec, execHdrWrite, apply_ite (withPending q)]; rfl
  | encode => simp only [exec, execEncode, apply_ite (withPending q)]; rfl

theorem issueCommand_withPending (w : Word) (s : State) (q : List HostAction) :
    issueCommand w { s with pending := q } = withPending q (issueCommand w s) := by
  cases hd : decode w with
  | ok i => rw [issueCommand_of_decode hd, issueCommand_of_decode hd, exec_withPending]
  | error e => rw [issueCommand_of_illegal hd, issueCommand_of_illegal hd]; rfl

theorem hostWrite_withPending (target : RegTarget) (v : Word) (s : State) (q : List HostAction) :
    hostWrite target v { s with pending := q } = withPending q (hostWrite target v s) := by
  cases target with
  | reg r =>
    cases r with
    | cmd => exact issueCommand_withPending v s q
    | status | key | blkidx | csum | len | outlen => rfl
  | reserved | window => rfl

theorem hostRead_withPending (target : RegTarget) (s : State) (q : List HostAction) :
    hostRead target { s with pending := q } = hostRead target s := by
  cases target with
  | reg r => cases r <;> rfl
  | reserved | window => rfl

/-- What an action does depends on no other action still to come, and it leaves them as they are. -/
theorem hostStep_withPending (a : HostAction) (s : State) (q : List HostAction) :
    hostStep a { s with pending := q } = withPending q (hostStep a s) := by
  cases a with
  | write width off v =>
    cases ha : regAt width off with
    | none =>
      have hbad := (regAt_eq_none_iff width off).1 ha
      rw [hostStep_write_refused hbad, hostStep_write_refused hbad, withPending]
    | some target =>
      rw [hostStep_write_of_regAt ha, hostStep_write_of_regAt ha, hostWrite_withPending]
  | read width off =>
    cases ha : regAt width off with
    | none =>
      have hbad := (regAt_eq_none_iff width off).1 ha
      rw [hostStep_read_refused hbad, hostStep_read_refused hbad, withPending]
    | some target =>
      rw [hostStep_read_of_regAt ha, hostStep_read_of_regAt ha, hostRead_withPending]
      rfl
  | placeIn off bytes => simp only [hostStep, apply_ite (withPending q)]; rfl
  | fetchOut off count => simp only [hostStep, apply_ite (withPending q)]; rfl
  | reset => rfl

/-- The action a applied to the outcome of the actions before it. -/
def applyAction (o : Outcome) (a : HostAction) : Outcome :=
  match o with
  | .next u => hostStep a u
  | .fault f => .fault f
  | .refused r => .refused r

/-- After a refusal no action is applied. -/
theorem foldl_applyAction_refused (r : Refusal) (p : List HostAction) :
    p.foldl applyAction (.refused r) = .refused r := by
  induction p with
  | nil => rfl
  | cons a p ih => exact ih

theorem run_append_eq_foldl (s : State) (p rest : List HostAction) :
    (core.run p.length { s with pending := p ++ rest } : Outcome) =
      p.foldl applyAction (.next { s with pending := rest }) := by
  induction p generalizing s with
  | nil => rfl
  | cons a p ih =>
    have hstep : step { s with pending := a :: (p ++ rest) } = withPending (p ++ rest) (hostStep a s) :=
      hostStep_withPending a s (p ++ rest)
    rw [List.foldl_cons, applyAction, hostStep_withPending]
    cases ha : hostStep a s with
    | next t =>
      rw [ha] at hstep
      exact (run_succ_of_next p.length hstep).trans (ih t)
    | fault f => cases f
    | refused r =>
      rw [ha] at hstep
      exact (run_succ_of_refused p.length hstep).trans (foldl_applyAction_refused r p).symm

/-- Settles O43, by induction on the list of actions. -/
theorem actionsApplyInIssueOrder : Obligations.ActionsApplyInIssueOrder := run_append_eq_foldl

/-! ## The bytes of a word, of the header and of the window (R46, R47, R48) -/

/-- A word is the little-endian word of its bytes (R16). -/
theorem le32_byteOf (v : Word) : le32 (byteOf v 0) (byteOf v 1) (byteOf v 2) (byteOf v 3) = v := by
  have h32 : byteOf v 3 ++ byteOf v 2 = v.extractLsb' 16 16 := BitVec.extractLsb'_append_extractLsb'_eq_extractLsb' rfl
  have h321 : v.extractLsb' 16 16 ++ byteOf v 1 = v.extractLsb' 8 24 :=
    BitVec.extractLsb'_append_extractLsb'_eq_extractLsb' rfl
  have h3210 : v.extractLsb' 8 24 ++ byteOf v 0 = v.extractLsb' 0 32 :=
    BitVec.extractLsb'_append_extractLsb'_eq_extractLsb' rfl
  rw [le32, h32, h321, h3210, BitVec.extractLsb'_eq_self]

/-- After HDR.WRITE or ENCODE with RESULT 0, OUT begins with the header of KEY and of the CSUM they leave. -/
theorem memRead_header_of_exec {i : Instr} {s t : State} (hi : i = .hdrWrite ∨ i = .encode) (hout : Memory.wf s.outMem)
    (h : exec i s = .next t) (hr : t.result = 0#4) {y : Nat} (hy : y < 12) :
    memRead t.outMem y = (headerBytes s.key t.csum).getD y 0#8 := by
  obtain rfl | rfl := hi
  · obtain ⟨-, rfl⟩ := execHdrWrite_cases h
    exact (memRead_storeHeader _ _ _ _ hout).trans (if_pos hy)
  · obtain ⟨-, rfl⟩ | ⟨-, -, rfl⟩ := execEncode_cases h
    · cases hr
    · exact (memRead_encodeResult_outMem s _ _ hout).trans (if_pos hy)

/-- Magic stands most significant byte first (R47). -/
theorem headerBytes_getD_magic (key csum : Word) {m : Nat} (hm : m < 4) :
    (headerBytes key csum).getD m 0#8 = byteOf Config.magic (3 - m) := by
  interval_cases m <;> rfl

theorem headerBytes_getD_key (key csum : Word) {m : Nat} (hm : m < 4) :
    (headerBytes key csum).getD (4 + m) 0#8 = byteOf key m := by
  interval_cases m <;> rfl

theorem headerBytes_getD_csum (key csum : Word) {m : Nat} (hm : m < 4) :
    (headerBytes key csum).getD (8 + m) 0#8 = byteOf csum m := by
  interval_cases m <;> rfl

/-- Settles O26: OUT begins with the header, whose words are put together again from their bytes. -/
theorem headerFieldByteOrders : Obligations.HeaderFieldByteOrders := by
  intro i s t hi hout h hr
  have hread : ∀ y, y < 12 → memRead t.outMem y = (headerBytes s.key t.csum).getD y 0#8 :=
    fun y hy => memRead_header_of_exec hi hout h hr hy
  have hmagic : ∀ m, m < 4 → memRead t.outMem m = byteOf Config.magic (3 - m) :=
    fun m hm => (hread _ (by omega)).trans (headerBytes_getD_magic _ _ hm)
  have hkey : ∀ m, m < 4 → memRead t.outMem (4 + m) = byteOf s.key m :=
    fun m hm => (hread _ (by omega)).trans (headerBytes_getD_key _ _ hm)
  have hcsum : ∀ m, m < 4 → memRead t.outMem (8 + m) = byteOf t.csum m :=
    fun m hm => (hread _ (by omega)).trans (headerBytes_getD_csum _ _ hm)
  refine ⟨?magicBytes, fun m hm => ⟨hkey m hm, hcsum m hm⟩, ?magic, ?key, ?csum⟩
  case magicBytes =>
    simp only [memReadBytes, Nat.reduceAdd, hmagic, Nat.reduceLT]
    decide
  case magic =>
    rw [hmagic 0 (by decide), hmagic 1 (by decide), hmagic 2 (by decide), hmagic 3 (by decide)]
    decide
  case key => rw [hkey 0 (by decide), hkey 1 (by decide), hkey 2 (by decide), hkey 3 (by decide), le32_byteOf]
  case csum => rw [hcsum 0 (by decide), hcsum 1 (by decide), hcsum 2 (by decide), hcsum 3 (by decide), le32_byteOf]

/-- The bytes of BLKBUF after a write to window word k (R46). -/
theorem blkByte_blkSetWord (B : Block) (v : Word) {k j : Nat} (hj : j < Config.blockSize) :
    blkByte (blkSetWord B k v) j = if j / 4 = k then byteOf v (j % 4) else blkByte B j := by
  rw [blkByte_of_lt _ _ hj, blkByte_of_lt _ _ hj]
  simp only [blkSetWord, Vector.getElem_setIfInBounds]
  by_cases hk : j / 4 = k
  · rw [if_pos hk]
    obtain ⟨m, hm, rfl⟩ : ∃ m, m < 4 ∧ j = 4 * k + m := ⟨j % 4, by omega, by omega⟩
    interval_cases m <;> simp
  · rw [if_neg hk, if_neg (by omega), if_neg (by omega), if_neg (by omega), if_neg (by omega)]

/-- The word written to a window word is the word it then reads as (R46). -/
theorem blkWord_blkSetWord (B : Block) (v : Word) {k : Nat} (hk : k < Config.wordsPerBlock) :
    blkWord (blkSetWord B k v) k = v := by
  simp only [Config.wordsPerBlock, Config.blockSize] at hk
  have hbyte : ∀ m, m < 4 → blkByte (blkSetWord B k v) (4 * k + m) = byteOf v m := fun m hm => by
    rw [blkByte_blkSetWord B v (by simp only [Config.blockSize]; omega), if_pos (by omega), Nat.mul_add_mod,
      Nat.mod_eq_of_lt hm]
  rw [blkWord, hbyte 1 (by decide), hbyte 2 (by decide), hbyte 3 (by decide), ← Nat.add_zero (4 * k),
    hbyte 0 (by decide), le32_byteOf]

/-- Settles O38: the offset reaches window word k, which reads and writes its four bytes. -/
theorem windowWordIsLittleEndian : Obligations.WindowWordIsLittleEndian := by
  refine ⟨fun s k rest hk hp => ?_, fun s k v rest hk hp => ?_⟩
  · calc step s = hostStep (rdBlkbuf k) { s with pending := rest } := step_of_pending hp
      _ = .next (addReply (.word (blkWord s.blkbuf k)) { s with pending := rest }) :=
        hostStep_read_of_regAt (regAt_window k hk) _
  · have hstep : step s = .next { s with pending := rest, blkbuf := blkSetWord s.blkbuf k v } := by
      calc step s = hostStep (wrBlkbuf k v) { s with pending := rest } := step_of_pending hp
        _ = .next { s with pending := rest, blkbuf := blkSetWord s.blkbuf k v } :=
          hostStep_write_of_regAt (regAt_window k hk) v _
    exact ⟨_, hstep, rfl, fun j hj => blkByte_blkSetWord _ _ hj, blkWord_blkSetWord _ _ hk⟩

end Sys2Proof.Machine

/-! The encoding family (30_encoding.md): the decoder both ways, the map of the register window, and the host's two
accesses to the memories. -/

namespace Sys2Proof.Machine

/-! ## The decoder both ways (R60, R62, R64) -/

/-- A command's word selects the command again: its RSV field is zero and its OP field is the opcode (R60, R62). -/
@[simp] theorem decode_encode (i : Instr) : decode (encode i) = .ok i := by
  cases i <;> rfl

theorem decode_eq_ok_iff {w : Word} {i : Instr} : decode w = .ok i ↔ w = encode i :=
  ⟨eq_encode_of_decode, fun h => h ▸ decode_encode i⟩

theorem pair_encode_mem_commandWords (i : Instr) : (encode i, i) ∈ Claims.commandWords := by
  cases i <;> decide

theorem eq_encode_of_mem_commandWords : ∀ p ∈ Claims.commandWords, p.1 = encode p.2 := by
  decide

/-- The opcode map pairs each command with its word alone (R62). -/
theorem mem_commandWords_iff {w : Word} {i : Instr} : (w, i) ∈ Claims.commandWords ↔ w = encode i :=
  ⟨eq_encode_of_mem_commandWords (w, i), fun h => h ▸ pair_encode_mem_commandWords i⟩

/-- Settles O1: both the decoder and the opcode map pair a command with its own word and with no other. -/
theorem decodeComparesWithTheSevenWords : Obligations.DecodeComparesWithTheSevenWords := by
  refine ⟨fun w i => decode_eq_ok_iff.trans mem_commandWords_iff.symm, fun w => ⟨?_, decode_eq_error_of_notMem⟩⟩
  rintro ⟨e, he⟩ hw
  obtain ⟨⟨w, i⟩, hmem, rfl⟩ := List.mem_map.1 hw
  have hok : decode w = .ok i := decode_eq_ok_iff.2 (mem_commandWords_iff.1 hmem)
  cases hok.symm.trans he

/-- Settles O2: the seven words are the commands' own; of the others the first two have RSV zero. -/
theorem specWordsDecode : Obligations.SpecWordsDecode :=
  ⟨decode_encode .csumInit, decode_encode .csumUpd, decode_encode .blkXform, decode_encode .blkLoad,
    decode_encode .blkStore, decode_encode .hdrWrite, decode_encode .encode,
    by decide, by decide, by decide, by decide⟩

/-- A table word of all 32 bits is the word itself: nothing is cut off. -/
@[simp] theorem tableWord_toNat (w : Word) : tableWord 32 w.toNat = w := by
  rw [tableWord, Nat.mod_eq_of_lt w.isLt, BitVec.ofNat_toNat, BitVec.setWidth_eq]

/-- Settles O3: the table word of encode i is encode i, which decodes to i. -/
theorem decodeOfEncodeIsTheCommand : Obligations.DecodeOfEncodeIsTheCommand := by
  intro i _
  exact ⟨decode_encode i, by simp only [decodeTableWord, tableWord_toNat, decode_encode]⟩

/-! ## The map of the register window (R65, R66) -/

/-- Between the named registers and the window onto BLKBUF every word is reserved (R65). -/
theorem regAt_reserved {off : Nat} (hword : off % 4 = 0) (hlow : 0x01C ≤ off) (hhigh : off ≤ 0x7FC) :
    regAt 4 off = some .reserved := by
  have hne : ∀ c, c < 0x01C → off ≠ c := fun c hc => by omega
  have hin : ¬ Config.windowSize ≤ off := by simp only [Config.windowSize]; omega
  have hbelow : off < Config.blkbufOffset := by simp only [Config.blkbufOffset]; omega
  simp [regAt, hword, hin, hne, hbelow]

/-- The words below 0x01C are the seven named registers (R65). -/
theorem exists_eq_regOffset_of_lt {off : Nat} (hword : off % 4 = 0) (hlt : off < 0x01C) : ∃ r, off = regOffset r := by
  obtain ⟨n, rfl⟩ := Nat.dvd_of_mod_eq_zero hword
  have hn : n < 7 := by omega
  interval_cases n
  exacts [⟨.cmd, rfl⟩, ⟨.status, rfl⟩, ⟨.key, rfl⟩, ⟨.blkidx, rfl⟩, ⟨.csum, rfl⟩, ⟨.len, rfl⟩, ⟨.outlen, rfl⟩]

/-- Settles O37: an access reaches a named register, a reserved word or, reading, a word of BLKBUF; above the registers
no test of the map for one of their offsets holds. -/
theorem registerWindowMap : Obligations.RegisterWindowMap := by
  refine ⟨fun s off rest hp hword hin => ?read, fun s off v rest hp hword hin => ?write⟩
  case read =>
    obtain hnamed | habove := Nat.lt_or_ge off 0x01C
    · obtain ⟨r, rfl⟩ := exists_eq_regOffset_of_lt hword hnamed
      rw [step_of_pending hp, hostStep_read_of_regAt (regAt_regOffset r)]
      cases r <;> rfl
    · have hne : ∀ c, c < 0x01C → off ≠ c := fun c hc => (hc.trans_le habove).ne'
      by_cases hres : off ≤ 0x7FC
      · rw [step_of_pending hp, hostStep_read_of_regAt (regAt_reserved hword habove hres)]
        simp [hne, hres, hostRead, addReply]
      · have hk : (off - 0x800) / 4 < 512 := by omega
        have hoff : off = 0x800 + 4 * ((off - 0x800) / 4) := by omega
        have hbyte : 4 * ((off - 0x800) / 4) = off - 0x800 := by omega
        rw [windowWordIsLittleEndian.1 s _ rest hk (hoff ▸ hp), hbyte]
        simp [hne, hres]
  case write =>
    rw [step_of_pending hp]
    obtain hnamed | habove := Nat.lt_or_ge off 0x01C
    · obtain ⟨r, rfl⟩ := exists_eq_regOffset_of_lt hword hnamed
      rw [hostStep_write_of_regAt (regAt_regOffset r)]
      cases r <;> rfl
    · have hne : ∀ c, c < 0x01C → off ≠ c := fun c hc => (hc.trans_le habove).ne'
      rw [hostStep_write_of_regAt (regAt_reserved hword habove hin)]
      simp [hne, hostWrite]

/-! ## The host's two accesses to the memories (R44, R72) -/

theorem hostStep_placeIn_of_backed {s : State} {off : Nat} {bytes : List Byte} (h : off + bytes.length ≤ s.inSize) :
    hostStep (.placeIn off bytes) s = .next { s with inMem := memWriteBytes s.inMem off bytes } :=
  if_neg (Nat.not_lt.2 h)

theorem hostStep_fetchOut_of_backed {s : State} {off count : Nat} (h : off + count ≤ s.outSize) :
    hostStep (.fetchOut off count) s = .next (addReply (.bytes (memReadBytes s.outMem off count)) s) :=
  if_neg (Nat.not_lt.2 h)

/-- Settles O40: where the range is backed neither access is refused, and the laws of the byte memory say what it
places or answers. -/
theorem hostMemoryActions : Obligations.HostMemoryActions := by
  refine ⟨fun s off bs rest hwf hp hb => ?place, fun s off count rest hp hb => ?fetch⟩
  case place =>
    exact ⟨_, (step_of_pending hp).trans (hostStep_placeIn_of_backed hb), rfl,
      fun a => memRead_memWriteBytes _ off bs a hwf⟩
  case fetch =>
    rw [step_of_pending hp, ← memReadBytes_eq_map]
    exact hostStep_fetchOut_of_backed hb

end Sys2Proof.Machine

/-! The checksum family (40_checksum.md): Fold as one exclusive or over the block's words, its four byte lanes, and what
a change of the block's bytes does to it. -/

namespace Sys2Proof.Machine

/-! ## Fold word by word (R80, R81) -/

/-- Word W(k) of a byte sequence (R80). -/
def listWord (bs : List Byte) (k : Nat) : Word :=
  le32 (bs.getD (4 * k) 0#8) (bs.getD (4 * k + 1) 0#8) (bs.getD (4 * k + 2) 0#8) (bs.getD (4 * k + 3) 0#8)

theorem listWord_zero (b0 b1 b2 b3 : Byte) (r : List Byte) :
    listWord (b0 :: b1 :: b2 :: b3 :: r) 0 = le32 b0 b1 b2 b3 := rfl

theorem listWord_succ (b0 b1 b2 b3 : Byte) (r : List Byte) (k : Nat) :
    listWord (b0 :: b1 :: b2 :: b3 :: r) (k + 1) = listWord r k := rfl

theorem listWord_toList (B : Block) (k : Nat) : listWord B.toList k = blkWord B k := rfl

/-- Folding a byte sequence is folding its whole words in order (R80). -/
theorem foldBytes_eq_foldl (acc : Word) (bs : List Byte) :
    foldBytes acc bs = (List.range (bs.length / 4)).foldl (fun a k => a ^^^ listWord bs k) acc := by
  induction acc, bs using foldBytes.induct with
  | case1 acc b0 b1 b2 b3 r ih =>
    have hlen : (b0 :: b1 :: b2 :: b3 :: r).length / 4 = r.length / 4 + 1 := by simp only [List.length_cons]; omega
    rw [foldBytes, ih, hlen, List.range_succ_eq_map, List.foldl_cons, List.foldl_map, listWord_zero]
    simp only [Nat.succ_eq_add_one, listWord_succ]
  | case2 bs acc h =>
    have hshort : bs.length < 4 := by
      match bs, h with
      | [], _ | [_], _ | [_, _], _ | [_, _, _], _ => simp
      | b0 :: b1 :: b2 :: b3 :: r, h => exact (h b0 b1 b2 b3 r rfl).elim
    rw [foldBytes.eq_2 _ _ h, Nat.div_eq_of_lt hshort, List.range_zero, List.foldl_nil]

/-- Fold is the exclusive or of the accumulator and the 512 words of the block (R80). -/
theorem fold_eq_foldl_blkWord (acc : Word) (B : Block) :
    fold acc B = (List.range 512).foldl (fun a k => a ^^^ blkWord B k) acc := by
  simp only [fold, foldBytes_eq_foldl, Vector.length_toList, listWord_toList, Config.blockSize, Nat.reduceDiv]

/-! ## The four byte lanes of Fold (R84) -/

theorem byteOf_xor (v w : Word) (m : Nat) : byteOf (v ^^^ w) m = byteOf v m ^^^ byteOf w m := BitVec.extractLsb'_xor

/-- Above its lowest byte, a word put together from bytes has the bytes of its upper part. -/
theorem extractLsb'_append_byte {n : Nat} (v : BitVec n) (b : Byte) (k : Nat) :
    (v ++ b).extractLsb' (8 * (k + 1)) 8 = v.extractLsb' (8 * k) 8 := by
  rw [BitVec.extractLsb'_append_eq_of_le (by omega), Nat.mul_add, Nat.add_sub_cancel]

/-- Byte m of a little-endian word is its m-th byte (R16). -/
theorem byteOf_le32 (b0 b1 b2 b3 : Byte) {m : Nat} (hm : m < 4) :
    byteOf (le32 b0 b1 b2 b3) m = [b0, b1, b2, b3].getD m 0#8 := by
  unfold byteOf le32
  match m, hm with
  | 0, _ => exact BitVec.extractLsb'_append_eq_right
  | 1, _ => rw [extractLsb'_append_byte]; exact BitVec.extractLsb'_append_eq_right
  | 2, _ => rw [extractLsb'_append_byte, extractLsb'_append_byte]; exact BitVec.extractLsb'_append_eq_right
  | 3, _ => rw [extractLsb'_append_byte, extractLsb'_append_byte]; exact BitVec.extractLsb'_append_eq_left

/-- Word k of a block has the bytes of index 4 k + m (R46, R80). -/
theorem byteOf_blkWord (B : Block) (k : Nat) {m : Nat} (hm : m < 4) :
    byteOf (blkWord B k) m = blkByte B (4 * k + m) := by
  rw [blkWord, byteOf_le32 _ _ _ _ hm]
  interval_cases m <;> rfl

/-- Two words with the same four bytes are equal. -/
theorem word_ext {v w : Word} (h : ∀ m, m < 4 → byteOf v m = byteOf w m) : v = w := by
  rw [← le32_byteOf v, ← le32_byteOf w, h 0 (by decide), h 1 (by decide), h 2 (by decide), h 3 (by decide)]

/-- Each byte lane of Fold is folded by itself (R84). -/
theorem byteOf_fold (acc : Word) (B : Block) {m : Nat} (hm : m < 4) :
    byteOf (fold acc B) m = (List.range 512).foldl (fun a k => a ^^^ blkByte B (4 * k + m)) (byteOf acc m) := by
  rw [fold_eq_foldl_blkWord]
  refine (List.foldl_hom (byteOf · m) fun a k => ?_).symm
  rw [byteOf_xor, byteOf_blkWord B k hm]

/-- The lanes of the fold of a block given by its bytes. -/
theorem byteOf_fold_blockOf (acc : Word) (f : Nat → Byte) {m : Nat} (hm : m < 4) :
    byteOf (fold acc (blockOf f)) m = (List.range 512).foldl (fun a k => a ^^^ f (4 * k + m)) (byteOf acc m) := by
  rw [byteOf_fold acc _ hm]
  refine List.foldl_ext _ _ _ fun a k hk => ?_
  have hlt : 4 * k + m < Config.blockSize := by
    have := List.mem_range.1 hk
    simp only [Config.blockSize]
    omega
  rw [blkByte_blockOf f _ hlt]

/-! ## Exclusive ors over a list -/

/-- Two folds side by side are one fold of the exclusive ors. -/
theorem foldl_xor_xor {w : Nat} (f g : Nat → BitVec w) (l : List Nat) (a b : BitVec w) :
    l.foldl (fun x k => x ^^^ (f k ^^^ g k)) (a ^^^ b) =
      l.foldl (fun x k => x ^^^ f k) a ^^^ l.foldl (fun x k => x ^^^ g k) b :=
  List.foldl_hom₂ l (· ^^^ ·) _ _ _ a b fun a b k => by ac_rfl

/-- An even number of equal terms cancels. -/
theorem foldl_xor_const_of_even {w : Nat} (b a : BitVec w) {l : List Nat} (h : Even l.length) :
    l.foldl (fun x _ => x ^^^ b) a = a := by
  have hinv : Function.Involutive (· ^^^ b) := fun x => xor_cancel_right x b
  rw [List.foldl_const (· ^^^ b) a l, hinv.iterate_even h, id]

/-- Of the first n bytes of a lane at most one is the byte of index j, and it counts once. -/
theorem foldl_xor_single (x a : Byte) (j n : Nat) {m : Nat} (hm : m < 4) :
    (List.range n).foldl (fun a k => a ^^^ if 4 * k + m = j then x else 0#8) a =
      a ^^^ if j % 4 = m ∧ j / 4 < n then x else 0#8 := by
  induction n with
  | zero => simp
  | succ n ih =>
    rw [List.range_succ, List.foldl_append, ih, List.foldl_cons, List.foldl_nil]
    by_cases hj : 4 * n + m = j
    · have hpast : ¬ (j % 4 = m ∧ j / 4 < n) := by omega
      have hhere : j % 4 = m ∧ j / 4 < n + 1 := by omega
      rw [if_pos hj, if_neg hpast, if_pos hhere, BitVec.xor_zero]
    · have hsame : (j % 4 = m ∧ j / 4 < n) ↔ (j % 4 = m ∧ j / 4 < n + 1) := by omega
      rw [if_neg hj, BitVec.xor_zero, if_congr hsame rfl rfl]

/-! ## Changing bytes of the block (R81, R85) -/

/-- The block with the bits of x flipped in the bytes of index j and k. -/
def flipTwo (B : Block) (x : Byte) (j k : Nat) : Block :=
  blockOf fun n => if n = j ∨ n = k then blkByte B n ^^^ x else blkByte B n

/-- A byte flipped in flipTwo is flipped by its own index, since the two indices differ. -/
theorem flipTwo_eq_xor (B : Block) (x : Byte) {j k : Nat} (hjk : j ≠ k) :
    flipTwo B x j k =
      blockOf fun n => blkByte B n ^^^ ((if n = j then x else 0#8) ^^^ if n = k then x else 0#8) := by
  refine congrArg blockOf (funext fun n => ?_)
  by_cases hj : n = j
  · simp [hj, hjk]
  · simp only [hj, if_false, false_or, BitVec.zero_xor]
    split <;> simp

/-- Flipping bits in two bytes flips them in the two lanes of the bytes (R84, R85). -/
theorem byteOf_fold_flipTwo (acc : Word) (B : Block) (x : Byte) {j k m : Nat} (hj : j < 2048) (hk : k < 2048)
    (hjk : j ≠ k) (hm : m < 4) :
    byteOf (fold acc (flipTwo B x j k)) m =
      byteOf (fold acc B) m ^^^ ((if j % 4 = m then x else 0#8) ^^^ if k % 4 = m then x else 0#8) := by
  have hlane : ∀ i, i < 2048 → (List.range 512).foldl (fun a k => a ^^^ if 4 * k + m = i then x else 0#8) 0#8 =
      if i % 4 = m then x else 0#8 := fun i hi => by
    have hin : i / 4 < 512 := by omega
    rw [foldl_xor_single x _ i 512 hm, BitVec.zero_xor, if_congr (and_iff_left hin) rfl rfl]
  calc byteOf (fold acc (flipTwo B x j k)) m
      = (List.range 512).foldl (fun a i => a ^^^ (blkByte B (4 * i + m) ^^^
          ((if 4 * i + m = j then x else 0#8) ^^^ if 4 * i + m = k then x else 0#8)))
          (byteOf acc m ^^^ (0#8 ^^^ 0#8)) := by
        rw [flipTwo_eq_xor B x hjk, byteOf_fold_blockOf acc _ hm, BitVec.xor_self, BitVec.xor_zero]
    _ = byteOf (fold acc B) m ^^^ ((if j % 4 = m then x else 0#8) ^^^ if k % 4 = m then x else 0#8) := by
        rw [foldl_xor_xor, foldl_xor_xor, hlane j hj, hlane k hk, byteOf_fold acc B hm]

/-- Exchanging two bytes flips, in both, the bits in which they differ. -/
theorem swap_eq_flipTwo (B : Block) (j k : Nat) :
    (blockOf fun n => if n = j then blkByte B k else if n = k then blkByte B j else blkByte B n) =
      flipTwo B (blkByte B j ^^^ blkByte B k) j k := by
  refine congrArg blockOf (funext fun n => ?_)
  by_cases hj : n = j
  · rw [if_pos hj, if_pos (.inl hj), hj, xor_cancel_left]
  · by_cases hk : n = k
    · rw [if_neg hj, if_pos hk, if_pos (.inr hk), hk, BitVec.xor_comm (blkByte B j), xor_cancel_left]
    · rw [if_neg hj, if_neg hk, if_neg (not_or.2 ⟨hj, hk⟩)]

/-- Folding a block twice undoes it (R85). -/
theorem fold_fold (acc : Word) (B : Block) : fold (fold acc B) B = acc := by
  rw [fold_eq_xor (fold acc B), fold_eq_xor acc, xor_cancel_right]

/-- CSUM.UPD sets CSUM and RESULT and nothing else (R83). -/
theorem exec_csumUpd (s : State) :
    exec .csumUpd s = .next { s with csum := fold s.csum s.blkbuf, result := 0#4 } := execCsumUpd_eq s

/-! ## The obligations of the family -/

/-- Settles O6: the meaning of CSUM.INIT holds no test. -/
theorem csumInitLoadsTheSeed : Obligations.CsumInitLoadsTheSeed :=
  ⟨decode_encode .csumInit, execCsumInit_eq⟩

/-- Settles O7: CSUM.UPD folds BLKBUF, and Fold goes word by word. -/
theorem csumUpdFoldsEveryWord : Obligations.CsumUpdFoldsEveryWord := by
  refine ⟨decode_encode .csumUpd, by decide, fun s => ?_⟩
  rw [exec_csumUpd, fold_eq_foldl_blkWord]
  rfl

/-- Settles O8: the words commute; and where j and k are of different lanes, exchanging their bytes flips in lane j % 4
the bits in which they differ, of which there is one. -/
theorem foldOrderIndependent : Obligations.FoldOrderIndependent := by
  refine ⟨fun acc B order hperm => ?permuted, fun acc B j k hj hk hlane hne heq => ?exchanged⟩
  case permuted =>
    rw [fold_eq_foldl_blkWord]
    exact hperm.foldl_eq' (fun x _ y _ z => by ac_rfl) acc
  case exchanged =>
    have hjk : j ≠ k := fun h => hlane (h ▸ rfl)
    rw [swap_eq_flipTwo] at heq
    have hbyte := byteOf_fold_flipTwo acc B (blkByte B j ^^^ blkByte B k) hj hk hjk (Nat.mod_lt j (by decide : 4 > 0))
    rw [heq, if_pos rfl, if_neg hlane.symm, BitVec.xor_zero] at hbyte
    exact hne (BitVec.xor_eq_zero_iff.1 ((BitVec.xor_right_inj _).1 (BitVec.xor_zero.trans hbyte)).symm)

/-- Settles O9. -/
theorem foldIsLaneParity : Obligations.FoldIsLaneParity := fun acc B _ hm => byteOf_fold acc B hm

/-- Settles O10, lane by lane: the accumulators of the two folds cancel; a lane has an even number of bytes; and two
flips in one lane cancel. -/
theorem foldCancelsItself : Obligations.FoldCancelsItself := by
  refine ⟨fold_fold, fun acc B C m hm => ?lanes, fun acc b => word_ext fun m hm => ?equalBytes,
    fun acc B x j k hj hk hjk hlane => word_ext fun m hm => ?flips⟩
  case lanes =>
    rw [byteOf_xor, byteOf_fold acc B hm, byteOf_fold acc C hm, ← foldl_xor_xor, BitVec.xor_self]
  case equalBytes =>
    rw [byteOf_fold_blockOf acc _ hm]
    exact foldl_xor_const_of_even b _ (by rw [List.length_range]; decide)
  case flips =>
    calc byteOf (fold acc (flipTwo B x j k)) m
        = byteOf (fold acc B) m ^^^ ((if j % 4 = m then x else 0#8) ^^^ if k % 4 = m then x else 0#8) :=
          byteOf_fold_flipTwo acc B x hj hk hjk hm
      _ = byteOf (fold acc B) m := by rw [hlane, BitVec.xor_self, BitVec.xor_zero]

/-- Settles O11: the second CSUM.UPD folds the same block, which the first leaves as it is. -/
theorem csumUpdTwiceRestoresCsum : Obligations.CsumUpdTwiceRestoresCsum :=
  fun s => ⟨_, exec_csumUpd s, by rw [exec_csumUpd, fold_fold]⟩

end Sys2Proof.Machine

/-! The block transform family (41_block_transform.md): the mask of the transform, where its window of eight bits
reaches, and how much of the index product the masks of a whole block show. -/

namespace Sys2Proof.Machine

/-! ## The transform as an exclusive or with the mask (R92) -/

/-- Steps 1 to 6 on a zero byte give the mask byte (R90, R92). -/
theorem xformByte_zero (idx key : Word) (i : Nat) :
    xformByte (Config.idxMul * idx) key i 0#8 = Claims.mask i idx key := by
  have hwindow : ∀ (v : Word) (o : Nat), (v >>> o).extractLsb' 0 8 = v.extractLsb' o 8 := fun v o => by
    rw [← BitVec.setWidth_eq_extractLsb' (by decide), BitVec.setWidth_ushiftRight_eq_extractLsb]
  have hoffset : i - Config.keyLen * (i / Config.keyLen) = i % 24 := (Nat.mod_eq_sub_mul_div ..).symm
  simp only [xformByte, Claims.mask, hoffset, BitVec.extractLsb'_xor, hwindow, BitVec.ofNat_mul]
  simp [BitVec.xor_comm]

/-- Every byte of the block is xored with its mask byte (R92). -/
theorem blkByte_transform_eq_mask (B : Block) (idx key : Word) {i : Nat} (hi : i < Config.blockSize) :
    blkByte (transform B idx key) i = blkByte B i ^^^ Claims.mask i idx key := by
  rw [blkByte_transform B idx key i hi, xformByte_eq_xor_mask, xformByte_zero]

theorem transform_eq_blockOf (B : Block) (idx key : Word) :
    transform B idx key = blockOf fun i => blkByte B i ^^^ Claims.mask i idx key :=
  block_ext fun i hi => by rw [blkByte_transform_eq_mask _ _ _ hi, blkByte_blockOf _ i hi]

/-- The key enters the mask by its low byte alone, as one more exclusive or (R92, R96). -/
theorem mask_eq_xor_key (i : Nat) (idx key : Word) :
    Claims.mask i idx key = Claims.mask i idx 0#32 ^^^ key.extractLsb' 0 8 := by
  rw [Claims.mask, Claims.mask, BitVec.extractLsb'_zero, BitVec.zero_xor, BitVec.xor_comm]

theorem mask_congr_key {key other : Word} (h : key.extractLsb' 0 8 = other.extractLsb' 0 8) (i : Nat) (idx : Word) :
    Claims.mask i idx key = Claims.mask i idx other := by
  rw [mask_eq_xor_key, h, ← mask_eq_xor_key]

/-- Two transforms of one block are the same block exactly when their masks are the same (R92). -/
theorem transform_eq_transform_iff {B : Block} {idx other key key' : Word} :
    transform B idx key = transform B other key' ↔
      ∀ i, i < Config.blockSize → Claims.mask i idx key = Claims.mask i other key' := by
  refine ⟨fun h i hi => ?_, fun h => block_ext fun i hi => ?_⟩
  · have hbyte := congrArg (blkByte · i) h
    simpa only [blkByte_transform_eq_mask _ _ _ hi, BitVec.xor_right_inj] using hbyte
  · rw [blkByte_transform_eq_mask _ _ _ hi, blkByte_transform_eq_mask _ _ _ hi, h i hi]

/-- The transform undoes itself (R95). -/
theorem transform_transform (B : Block) (idx key : Word) : transform (transform B idx key) idx key = B :=
  block_ext fun i hi => by
    rw [blkByte_transform_eq_mask _ _ _ hi, blkByte_transform_eq_mask _ _ _ hi, xor_cancel_right]

/-- A second transform that restores the block is the same transform as the first. -/
theorem transform_eq_of_restores {B : Block} {idx other key key' : Word}
    (h : transform (transform B idx key) other key' = B) : transform B idx key = transform B other key' := by
  rw [← transform_transform (transform B idx key) other key', h]

/-- BLK.XFORM sets BLKBUF and RESULT and nothing else (R94). -/
theorem exec_blkXform (s : State) :
    exec .blkXform s = .next { s with blkbuf := transform s.blkbuf s.blkidx s.key, result := 0#4 } :=
  execBlkXform_eq s

/-! ## The window of eight bits under any arithmetic width (R93) -/

/-- Eight bits from bit o on are the same of a number and of the number reduced modulo 2 ^ n, where n lies above them. -/
theorem window_mod_two_pow (v : Nat) {o n : Nat} (h : o + 8 ≤ n) :
    BitVec.ofNat 8 (v % 2 ^ n / 2 ^ o) = BitVec.ofNat 8 (v / 2 ^ o) := by
  have hsplit : 2 ^ n = 2 ^ o * 2 ^ (n - o) := by rw [← Nat.pow_add, Nat.add_sub_cancel' (by omega)]
  have hdvd : 2 ^ 8 ∣ 2 ^ (n - o) := Nat.pow_dvd_pow 2 (by omega)
  apply BitVec.eq_of_toNat_eq
  rw [BitVec.toNat_ofNat, BitVec.toNat_ofNat, hsplit, Nat.mod_mul_right_div_self, Nat.mod_mod_of_dvd _ hdvd]

/-- Bits o+7:o of a word are those of its number. -/
theorem extractLsb'_byte_eq_ofNat (v : Word) (o : Nat) : v.extractLsb' o 8 = BitVec.ofNat 8 (v.toNat / 2 ^ o) := by
  rw [BitVec.extractLsb', Nat.shiftRight_eq_div_pow]

/-- The window of the mask reaches at most bit 30 (R93). -/
theorem window_le (i : Nat) : i % 24 + 8 ≤ 31 := by omega

/-- The mask byte from numbers that are not reduced at all (R93). -/
theorem mask_eq_unreduced (i : Nat) (idx key : Word) :
    Claims.mask i idx key =
      key.extractLsb' 0 8 ^^^ BitVec.ofNat 8 ((i * i + 0x4BAD * idx.toNat) / 2 ^ (i % 24)) := by
  have hnat : (BitVec.ofNat 32 (i * i) + 0x4BAD#32 * idx).toNat = (i * i + 0x4BAD * idx.toNat) % 2 ^ 32 := by
    rw [BitVec.toNat_add, BitVec.toNat_mul, BitVec.toNat_ofNat, ← Nat.add_mod]
    rfl
  rw [Claims.mask, extractLsb'_byte_eq_ofNat _ (i % 24), hnat, window_mod_two_pow _ (by have := window_le i; omega)]

/-! ## What the masks show of the index product (R95, R97) -/

/-- Bits 30:0 of two index products agree (R97). -/
def SameProduct (idx other : Word) : Prop := 0x4BAD * idx.toNat ≡ 0x4BAD * other.toNat [MOD 2 ^ 31]

theorem sameProduct_iff {idx other : Word} :
    SameProduct idx other ↔ (0x4BAD#32 * idx).extractLsb' 0 31 = (0x4BAD#32 * other).extractLsb' 0 31 := by
  have hnat : ∀ w : Word, ((0x4BAD#32 * w).extractLsb' 0 31).toNat = 0x4BAD * w.toNat % 2 ^ 31 := fun w => by
    rw [BitVec.extractLsb'_toNat, Nat.shiftRight_zero, BitVec.toNat_mul, Nat.mod_mod_of_dvd _ (by decide)]
    rfl
  rw [BitVec.toNat_eq, hnat, hnat]
  rfl

theorem mask_congr_of_sameProduct {idx other : Word} (h : SameProduct idx other) (i : Nat) (key : Word) :
    Claims.mask i idx key = Claims.mask i other key := by
  rw [mask_eq_unreduced, mask_eq_unreduced, ← window_mod_two_pow _ (window_le i), Nat.ModEq.add_left (i * i) h,
    window_mod_two_pow _ (window_le i)]

/-- Numbers that agree below bit o, and whose sums with c agree in bits o+7:o, agree below bit o + 8: the carry into the
window comes from the bits below it. -/
theorem modEq_of_window {o a b : Nat} (c : Nat) (hlow : a ≡ b [MOD 2 ^ o])
    (hwindow : BitVec.ofNat 8 ((c + a) / 2 ^ o) = BitVec.ofNat 8 ((c + b) / 2 ^ o)) : a ≡ b [MOD 2 ^ (o + 8)] := by
  have hbits : (c + a) / 2 ^ o % 2 ^ 8 = (c + b) / 2 ^ o % 2 ^ 8 := by
    simpa only [BitVec.toNat_ofNat] using congrArg BitVec.toNat hwindow
  have hcarry : (c + a) % 2 ^ o = (c + b) % 2 ^ o := hlow.add_left c
  refine Nat.ModEq.add_left_cancel' c ?_
  rw [Nat.ModEq, Nat.pow_add, Nat.mod_mul, Nat.mod_mul, hcarry, hbits]

/-- The masks of a whole block show bits 30:0 of the index product: bytes 0, 8, 16 and 23 show bits 7:0, 15:8, 23:16 and
30:23 of sums with it, each given the bits below (R97). -/
theorem sameProduct_of_mask_eq {idx other key : Word}
    (h : ∀ i, i < Config.blockSize → Claims.mask i idx key = Claims.mask i other key) : SameProduct idx other := by
  have hextend : ∀ i, i < 24 → 0x4BAD * idx.toNat ≡ 0x4BAD * other.toNat [MOD 2 ^ i] →
      0x4BAD * idx.toNat ≡ 0x4BAD * other.toNat [MOD 2 ^ (i + 8)] := fun i hi hlow => by
    have hmask := h i (hi.trans (by decide))
    rw [mask_eq_unreduced, mask_eq_unreduced, BitVec.xor_right_inj, Nat.mod_eq_of_lt hi] at hmask
    exact modEq_of_window (i * i) hlow hmask
  have h8 := hextend 0 (by decide) Nat.modEq_one
  have h16 := hextend 8 (by decide) h8
  have h24 := hextend 16 (by decide) h16
  exact hextend 23 (by decide) (h24.of_dvd (by decide))

/-! ## The index product (R97) -/

/-- Flipping bit 31 is adding it, since its carry leaves the word. -/
theorem xor_bit31_eq_add (w : Word) : w ^^^ 0x80000000#32 = w + 0x80000000#32 := by
  have hlow : (w.toNat ^^^ 2 ^ 31) % 2 ^ 31 = w.toNat % 2 ^ 31 := by
    rw [Nat.xor_mod_two_pow, Nat.mod_self, Nat.xor_zero]
  have hflip : ∀ t, t < 2 → t ^^^ 1 = (t + 1) % 2 := by decide
  have hhigh : (w.toNat ^^^ 2 ^ 31) / 2 ^ 31 = (w.toNat / 2 ^ 31 + 1) % 2 := by
    have htop : w.toNat / 2 ^ 31 < 2 := by omega
    rw [Nat.xor_div_two_pow, Nat.div_self (by decide), hflip _ htop]
  apply BitVec.eq_of_toNat_eq
  rw [BitVec.toNat_xor, BitVec.toNat_add]
  change w.toNat ^^^ 2 ^ 31 = (w.toNat + 2 ^ 31) % 2 ^ 32
  omega

/-- 0x4BAD is odd, so bit 31 of the index changes bit 31 of the product alone (R97). -/
theorem product_xor_bit31 (idx : Word) : 0x4BAD#32 * (idx ^^^ 0x80000000#32) = (0x4BAD#32 * idx) ^^^ 0x80000000#32 := by
  rw [xor_bit31_eq_add, xor_bit31_eq_add, BitVec.mul_add]
  rfl

theorem sameProduct_xor_bit31 (idx : Word) : SameProduct idx (idx ^^^ 0x80000000#32) := by
  rw [sameProduct_iff, product_xor_bit31, BitVec.extractLsb'_xor]
  exact BitVec.xor_zero.symm

/-- Multiplying by 0x436B5025, the inverse of 0x4BAD modulo 2 ^ 32, undoes the product (R97). -/
theorem product_bijective : Function.Bijective fun idx : Word => 0x4BAD#32 * idx := by
  have hinv : 0x436B5025#32 * 0x4BAD#32 = 1#32 := by decide
  refine Function.bijective_iff_has_inverse.2 ⟨fun p => 0x436B5025#32 * p, fun w => ?_, fun w => ?_⟩
  · change 0x436B5025#32 * (0x4BAD#32 * w) = w
    rw [← BitVec.mul_assoc, hinv, BitVec.one_mul]
  · change 0x4BAD#32 * (0x436B5025#32 * w) = w
    rw [← BitVec.mul_assoc, BitVec.mul_comm 0x4BAD#32, hinv, BitVec.one_mul]

/-! ## The checksum under the mask (R99) -/

/-- In each lane the key's low byte enters an even number of times, and cancels (R84, R99). -/
theorem fold_transform_key (acc : Word) (B : Block) (idx key : Word) :
    fold acc (transform B idx key) = fold acc (transform B idx 0#32) := by
  refine word_ext fun m hm => ?_
  rw [transform_eq_blockOf B idx key, transform_eq_blockOf B idx 0#32, byteOf_fold_blockOf acc _ hm,
    byteOf_fold_blockOf acc _ hm]
  calc (List.range 512).foldl (fun a k => a ^^^ (blkByte B (4 * k + m) ^^^ Claims.mask (4 * k + m) idx key))
          (byteOf acc m)
      = (List.range 512).foldl (fun a k => a ^^^ ((blkByte B (4 * k + m) ^^^ Claims.mask (4 * k + m) idx 0#32) ^^^
          key.extractLsb' 0 8)) (byteOf acc m ^^^ 0#8) := by
        simp only [mask_eq_xor_key _ idx key, BitVec.xor_assoc, BitVec.xor_zero]
    _ = (List.range 512).foldl (fun a k => a ^^^ (blkByte B (4 * k + m) ^^^ Claims.mask (4 * k + m) idx 0#32))
          (byteOf acc m) := by
        rw [foldl_xor_xor, foldl_xor_const_of_even _ _ (by rw [List.length_range]; decide), BitVec.xor_zero]

/-- The accumulator of ENCODE is the same under every key (R99, R111). -/
theorem encodeAcc_key (m : Memory) (L : Nat) (key other : Word) (n : Nat) :
    encodeAcc m L key n = encodeAcc m L other n := by
  induction n with
  | zero => rfl
  | succ n ih =>
    rw [encodeAcc, encodeAcc, ih, payloadBlock, payloadBlock, fold_transform_key, ← fold_transform_key _ _ _ other]

/-! ## The obligations of the family -/

/-- Settles O12: the meaning of BLK.XFORM holds no test. -/
theorem xformXorsTheMask : Obligations.XformXorsTheMask :=
  ⟨decode_encode .blkXform, fun s => ⟨_, exec_blkXform s, rfl, fun _ hi => blkByte_transform_eq_mask _ _ _ hi⟩⟩

/-- Settles O13: the window of the mask ends at bit 30 and so lies below every width of at least 31. -/
theorem xformIsWidthIndependent : Obligations.XformIsWidthIndependent := by
  have hunreduced : ∀ (B : Block) (idx key : Word) (i : Nat), i < 2048 →
      blkByte (transform B idx key) i = blkByte B i ^^^ key.extractLsb' 0 8 ^^^
        BitVec.ofNat 8 ((i * i + 0x4BAD * idx.toNat) / 2 ^ (i % 24)) := fun B idx key i hi => by
    rw [blkByte_transform_eq_mask B idx key hi, mask_eq_unreduced, BitVec.xor_assoc]
  refine ⟨fun n B idx key i hn hi => ?reduced, hunreduced, fun i hi => ?square, fun idx => ?wraps⟩
  case reduced =>
    rw [hunreduced B idx key i hi, ← Nat.add_mod, window_mod_two_pow _ ((window_le i).trans hn)]
  case square =>
    have hle : i * i ≤ 2047 * 2047 := Nat.mul_self_le_mul_self (by omega)
    omega
  case wraps => omega

/-- Settles O14: a second transform restores the block only if it is the first one again; mask byte 0 then shows the
key's low byte, and all masks together show bits 30:0 of the index product. -/
theorem xformIsAnInvolution : Obligations.XformIsAnInvolution := by
  refine ⟨transform_transform, fun s => ⟨_, exec_blkXform s, ?command⟩, fun B idx key other hne h => ?otherKey,
    fun B idx other key hne h => ?otherIndex⟩
  case command => rw [exec_blkXform, transform_transform]
  case otherKey =>
    have hmask := transform_eq_transform_iff.1 (transform_eq_of_restores h) 0 (by decide)
    rw [mask_eq_xor_key _ _ key, mask_eq_xor_key _ _ other, BitVec.xor_right_inj] at hmask
    exact hne hmask
  case otherIndex =>
    have hmasks := transform_eq_transform_iff.1 (transform_eq_of_restores h)
    exact hne (sameProduct_iff.1 (sameProduct_of_mask_eq hmasks))

/-- Settles O15: the low byte is the low byte of itself, and the mask takes no other bit of the key. -/
theorem xformUsesOnlyTheKeysLowByte : Obligations.XformUsesOnlyTheKeysLowByte := by
  intro B idx key
  have hlow : key.extractLsb' 0 8 = ((key.extractLsb' 0 8).zeroExtend 32).extractLsb' 0 8 := by
    rw [BitVec.extractLsb'_setWidth_of_le (by decide), BitVec.extractLsb'_eq_self]
  exact transform_eq_transform_iff.2 fun i _ => mask_congr_key hlow i idx

/-- Settles O16: the masks of a block and bits 30:0 of the index product determine each other. -/
theorem xformIndexTwins : Obligations.XformIndexTwins := by
  have hsame : ∀ idx other : Word, SameProduct idx other →
      ∀ (B : Block) (key : Word), transform B idx key = transform B other key :=
    fun _ _ h _ key => transform_eq_transform_iff.2 fun i _ => mask_congr_of_sameProduct h i key
  refine ⟨fun B idx key => hsame _ _ (sameProduct_xor_bit31 idx) B key, product_xor_bit31, product_bijective,
    fun idx other => ⟨fun h => ?_, fun h => hsame _ _ (sameProduct_iff.2 h)⟩⟩
  have hmasks := transform_eq_transform_iff.1 (h (blockOf fun _ => 0#8) 0#32)
  exact sameProduct_iff.1 (sameProduct_of_mask_eq hmasks)

/-- Settles O17. -/
theorem xformBytesAreIndependent : Obligations.XformBytesAreIndependent := by
  intro B C idx key other i hi hbyte hkey
  rw [blkByte_transform_eq_mask _ _ _ hi, blkByte_transform_eq_mask _ _ _ hi, hbyte, mask_congr_key hkey]

/-- Settles O18: the key cancels in every block's checksum, and ENCODE meets no test on the key. -/
theorem checksumIgnoresTheKey : Obligations.ChecksumIgnoresTheKey := by
  refine ⟨fold_transform_key, fun s key hv hb => ?_⟩
  exact ⟨_, _, execEncode_of_backed hv hb, execEncode_of_backed (s := { s with key := key }) hv hb, rfl, rfl,
    encodeAcc_key s.inMem (lenOf s) key s.key (nblk (lenOf s))⟩

end Sys2Proof.Machine

/-! The container framer family (42_container_framer.md): lengths and padding, what the four commands leave in the spec's
own bytes, and the host's loop of primitive commands. -/

namespace Sys2Proof.Machine

/-! ## Lengths and padding (R105) -/

theorem nblk_eq (L : Nat) : nblk L = (L + 2047) / 2048 := rfl

theorem padLen_eq (L : Nat) : padLen L = 2048 * nblk L := rfl

/-- The padded length is at or above L and less than one block above it (R105). -/
theorem padLen_around (L : Nat) : L ≤ 2048 * nblk L ∧ 2048 * nblk L < L + 2048 := by
  rw [nblk_eq]
  omega

/-- The padded length is the smallest multiple of 2048 at or above L: the number of blocks is at most N exactly
when L is at most 2048 N. -/
theorem nblk_le_iff {L N : Nat} : nblk L ≤ N ↔ L ≤ 2048 * N := by
  have := padLen_around L
  omega

/-- Settles O19: the padded length is a multiple of 2048 less than 2048 above L. -/
theorem paddedLengthIsTheSmallestMultiple : Obligations.PaddedLengthIsTheSmallestMultiple := by
  refine ⟨rfl, fun L => ⟨nblk_eq L, padLen_eq L⟩, fun L => ?around, fun L m hm hL => ?smallest,
    fun L p hL hp => ?lastBlock, fun L hlow hhigh => ?bounds, fun L => ?fits⟩
  case around =>
    have := padLen_around L
    rw [padLen_eq]
    omega
  case smallest =>
    obtain ⟨N, rfl⟩ := Nat.dvd_of_mod_eq_zero hm
    exact Nat.mul_le_mul_left 2048 (nblk_le_iff.2 hL)
  case lastBlock =>
    have := padLen_around L
    rw [padLen_eq] at hp
    omega
  case bounds =>
    obtain ⟨hone, hmax⟩ := nblk_bounds ⟨hlow, hhigh⟩
    rw [padLen_eq]
    omega
  case fits =>
    have hmax : nblk L ≤ 0x1FFFFF ↔ L ≤ 0xFFFFF800 := nblk_le_iff
    rw [padLen_eq]
    omega

/-! ## The padded input and the payload in the spec's own bytes (R71, R106, R111) -/

/-- Block b of the padded input, byte by byte (R106). -/
theorem paddedBlock_eq_blockOf (m : Memory) (L b : Nat) :
    paddedBlock m L b = blockOf fun j => Claims.paddedByte m L (2048 * b + j) := rfl

/-- Byte j of payload block b is payload byte 2048 b + j (R71). -/
theorem blkByte_payloadBlock (m : Memory) (L : Nat) (key : Word) (b : Nat) {j : Nat} (hj : j < 2048) :
    blkByte (payloadBlock m L key b) j = Claims.payloadByte m L key (2048 * b + j) := by
  have hblock : (2048 * b + j) / 2048 = b := by omega
  have hbyte : (2048 * b + j) % 2048 = j := by omega
  rw [payloadBlock, blkByte_transform_eq_mask _ _ _ hj, paddedBlock_eq_blockOf, blkByte_blockOf _ _ hj,
    Claims.payloadByte, hblock, hbyte]

/-- Payload byte p stands in payload block p / 2048 at p mod 2048 (R71). -/
theorem blkByte_payloadBlock_div_mod (m : Memory) (L : Nat) (key : Word) (p : Nat) :
    blkByte (payloadBlock m L key (p / 2048)) (p % 2048) = Claims.payloadByte m L key p := by
  rw [blkByte_payloadBlock _ _ _ _ (Nat.mod_lt p (by decide)), Nat.div_add_mod]

/-- Checksum word k of payload block b is payload word 512 b + k (R80). -/
theorem blkWord_payloadBlock (m : Memory) (L : Nat) (key : Word) (b : Nat) {k : Nat} (hk : k < 512) :
    blkWord (payloadBlock m L key b) k =
      Claims.payloadByte m L key (4 * (512 * b + k) + 3) ++ Claims.payloadByte m L key (4 * (512 * b + k) + 2) ++
        Claims.payloadByte m L key (4 * (512 * b + k) + 1) ++ Claims.payloadByte m L key (4 * (512 * b + k)) := by
  have hword : 4 * (512 * b + k) = 2048 * b + 4 * k := by omega
  simp only [blkWord, le32, hword, Nat.add_assoc]
  rw [blkByte_payloadBlock _ _ _ _ (by omega), blkByte_payloadBlock _ _ _ _ (by omega),
    blkByte_payloadBlock _ _ _ _ (by omega), blkByte_payloadBlock _ _ _ _ (by omega)]

/-- The accumulator of ENCODE is the Checksum: each block folds the next 512 payload words (R80, R111). -/
theorem encodeAcc_eq_checksum (m : Memory) (L : Nat) (key : Word) (n : Nat) :
    encodeAcc m L key n = Claims.checksum m L key n := by
  induction n with
  | zero => rfl
  | succ n ih =>
    rw [encodeAcc, ih, fold_eq_foldl_blkWord, Claims.checksum, Claims.checksum, Nat.mul_succ, List.range_add,
      List.foldl_append, List.foldl_map]
    refine List.foldl_ext _ _ _ fun a k hk => ?_
    rw [blkWord_payloadBlock _ _ _ _ (List.mem_range.1 hk)]

/-- The accumulator of ENCODE folds its payload blocks in index order (R111). -/
theorem encodeAcc_eq_foldl (m : Memory) (L : Nat) (key : Word) (n : Nat) :
    encodeAcc m L key n =
      (List.range n).foldl (fun acc b => fold acc (payloadBlock m L key b)) Config.csumSeed := by
  induction n with
  | zero => rfl
  | succ n ih => rw [encodeAcc, ih, List.range_succ, List.foldl_append, List.foldl_cons, List.foldl_nil]

/-- The header in the spec's own bytes (R47, R68). -/
theorem headerBytes_eq_header (key csum : Word) : headerBytes key csum = Claims.header key csum := rfl

/-- OUT after a successful ENCODE, in the spec's own bytes (R71, R111). -/
theorem memRead_container (s : State) (n a : Nat) (hout : Memory.wf s.outMem) :
    memRead (encodeResult s n).outMem a =
      if a < 12 then (Claims.header s.key (encodeResult s n).csum).getD a 0#8
      else if a < 12 + 2048 * n then Claims.payloadByte s.inMem (lenOf s) s.key (a - 12)
      else memRead s.outMem a := by
  rw [memRead_encodeResult_outMem s n a hout, blkByte_payloadBlock_div_mod, headerBytes_eq_header, encodeResult_csum]

/-- The payload blocks are read back from OUT (R111). -/
theorem blockOf_container (s : State) {n b : Nat} (hb : b < n) (hout : Memory.wf s.outMem) :
    (blockOf fun j => memRead (encodeResult s n).outMem (12 + 2048 * b + j)) =
      payloadBlock s.inMem (lenOf s) s.key b := by
  refine block_ext fun j hj => ?_
  simp only [Config.blockSize] at hj
  have hpayload : 12 + 2048 * b + j - 12 = 2048 * b + j := by omega
  rw [blkByte_blockOf _ _ hj, memRead_container s n _ hout, if_neg (by omega), if_pos (by omega), hpayload,
    blkByte_payloadBlock _ _ _ _ hj]

/-- Transforming a payload block again with its index and key gives the padded input back (R116). -/
theorem transform_payloadBlock (m : Memory) (L : Nat) (key : Word) (b : Nat) :
    transform (payloadBlock m L key b) (BitVec.ofNat 32 b) key = paddedBlock m L b :=
  transform_transform _ _ _

/-! ## The four commands (R108 to R113) -/

/-- ENCODE with RESULT 0 is the successful one (R112, R113). -/
theorem execEncode_cases_of_result_zero {s t : State} (h : execEncode s = .next t) (hr : t.result = 0#4) :
    ValidLen (lenOf s) ∧ t = finish (encodeResult s (nblk (lenOf s))) := by
  obtain ⟨-, rfl⟩ | ⟨hv, -, rfl⟩ := execEncode_cases h
  · cases hr
  · exact ⟨hv, rfl⟩

theorem not_validLen_iff {L : Nat} : ¬ ValidLen L ↔ L = 0 ∨ 0xFFFFF800 < L := by
  rw [ValidLen, not_and_or, Nat.not_le, Nat.not_le, Nat.lt_one_iff]

/-- BLKIDX holds the number of every block of a valid length. -/
theorem toNat_blockIndex {L n : Nat} (hv : ValidLen L) (hn : n < nblk L) : (BitVec.ofNat 32 n).toNat = n := by
  have hhigh := (nblk_bounds hv).2
  rw [BitVec.toNat_ofNat]
  omega

/-- A block of a valid length ends within the container's largest length (R109). -/
theorem payloadOffset_succ_le {L b : Nat} (hv : ValidLen L) (hb : b < nblk L) :
    12 + 2048 * (b + 1) ≤ 0xFFFFF80C := by
  have hhigh := (nblk_bounds hv).2
  omega

/-- Settles O20: whether LEN and BLKIDX name a block decides between the raise and the load. -/
theorem blkLoadLoadsThePaddedBlock : Obligations.BlkLoadLoadsThePaddedBlock := by
  refine ⟨decode_encode .blkLoad, fun s => execBlkLoad_raises, fun s hv hb => ?offset, fun s hv hb hin => ?load⟩
  case offset =>
    have hend := payloadOffset_succ_le hv hb
    omega
  case load =>
    exact ⟨_, execBlkLoad_of_backed (not_namesNoBlock_iff.2 ⟨hv, hb⟩) hin, rfl, fun j hj => blkByte_blockOf _ j hj⟩

/-- Settles O21: as for BLK.LOAD, and the store leaves the rest of OUT alone. -/
theorem blkStoreStoresThePayloadBlock : Obligations.BlkStoreStoresThePayloadBlock := by
  refine ⟨decode_encode .blkStore, fun s => execBlkStore_raises, fun s => payloadOffset_succ_le,
    fun s hout hv hb hsize => ?_⟩
  exact ⟨_, execBlkStore_of_backed (not_namesNoBlock_iff.2 ⟨hv, hb⟩) hsize, rfl,
    fun a => memRead_storeBlock _ _ _ a hout⟩

/-- Settles O22: the meaning of HDR.WRITE holds no test but that of R44. -/
theorem hdrWriteWritesTheHeader : Obligations.HdrWriteWritesTheHeader :=
  ⟨decode_encode .hdrWrite, fun _ hout hsize =>
    ⟨_, execHdrWrite_of_backed hsize, rfl, fun a => memRead_storeHeader _ _ _ a hout⟩⟩

/-- Settles O23: the accumulator is the Checksum of the payload bytes, which stand behind the header. -/
theorem encodeWritesTheContainer : Obligations.EncodeWritesTheContainer := by
  refine ⟨decode_encode .encode, blockSize_mod_four, fun s => execEncode_raises, fun s hout hv hin hsize => ?_⟩
  refine ⟨_, execEncode_of_backed hv ⟨hin, hsize⟩, ?_, fun j hj => ?_, fun a => ?_⟩
  · rw [← encodeAcc_eq_checksum]
    rfl
  · exact blkByte_payloadBlock _ _ _ _ hj
  · exact memRead_container s _ a hout

/-- Settles O24: those are the lengths that are not valid. -/
theorem encodeFailureWritesNothingElse : Obligations.EncodeFailureWritesNothingElse :=
  ⟨blockSize_mod_four, fun _ hlen => execEncode_raises (not_validLen_iff.2 hlen)⟩

/-- Settles O25: OUTLEN does not wrap, and a valid length has a block. -/
theorem containerShape : Obligations.ContainerShape := by
  intro s t h hr
  obtain ⟨hv, rfl⟩ := execEncode_cases_of_result_zero h hr
  obtain ⟨hlow, hhigh⟩ := nblk_bounds hv
  have hlen : (finish (encodeResult s (nblk (lenOf s)))).outlen.toNat = 12 + 2048 * nblk (lenOf s) :=
    toNat_containerLength hhigh
  rw [hlen, padLen_eq]
  omega

/-- Settles O28: OUT holds the payload blocks, the transform undoes itself, and Fold goes block by block. -/
theorem containerRoundTrip : Obligations.ContainerRoundTrip := by
  intro s t hout h hr
  obtain ⟨-, -, -, hkey, hcsum⟩ := headerFieldByteOrders .encode s t (.inr rfl) hout h hr
  obtain ⟨-, rfl⟩ := execEncode_cases_of_result_zero h hr
  simp only [finish_outMem, finish_csum] at hkey hcsum ⊢
  refine ⟨hkey, fun b hb => ?decoded, ?folded, fun b u hb hbuf hidx hukey => ?command⟩
  case decoded => rw [hkey, blockOf_container s hb hout, transform_payloadBlock, paddedBlock_eq_blockOf]
  case folded =>
    rw [hcsum, encodeResult_csum, encodeAcc_eq_foldl]
    refine List.foldl_ext _ _ _ fun acc b hb => ?_
    rw [blockOf_container s (List.mem_range.1 hb) hout]
  case command =>
    rw [exec_blkXform, hbuf, hidx, hukey, blockOf_container s hb hout, transform_payloadBlock, paddedBlock_eq_blockOf]

/-- The header of the seed in the spec's own bytes (R118). -/
theorem headerBytes_csumSeed (key : Word) : headerBytes key Config.csumSeed =
    [0x44#8, 0x3D#8, 0x2D#8, 0x3F#8, byteOf key 0, byteOf key 1, byteOf key 2, byteOf key 3,
      0x23#8, 0x43#8, 0x3D#8, 0xEF#8] := rfl

/-- Settles O29: the header of the seed, and a length of 0 is not valid. -/
theorem headerOnlyContainer : Obligations.HeaderOnlyContainer := by
  refine ⟨fun s hout hsize => ?_, fun s hlen => ?_⟩
  · refine ⟨_, _, execCsumInit_eq s, execHdrWrite_of_backed hsize, rfl, fun a => ?_⟩
    rw [← headerBytes_csumSeed]
    exact memRead_storeHeader _ _ _ a hout
  · have hzero : lenOf s = 0 := congrArg BitVec.toNat hlen
    exact execEncode_raises (not_validLen_iff.2 (.inl hzero))

/-- Settles O30: where both complete, the platform's sizes make no further difference. -/
theorem containerDependsOnlyOnInputAndKey : Obligations.ContainerDependsOnlyOnInputAndKey := by
  intro s u t v hs hu hlen hkey hin ht hv
  have hL : lenOf u = lenOf s := lenOf_congr hlen.symm
  obtain ⟨hbad, rfl⟩ | ⟨hgood, -, rfl⟩ := execEncode_cases ht <;>
    obtain ⟨hbad', rfl⟩ | ⟨hgood', -, rfl⟩ := execEncode_cases hv
  · exact ⟨rfl, rfl, nofun⟩
  · exact absurd (hL ▸ hgood') hbad
  · exact absurd (hL.symm ▸ hgood) hbad'
  · have hr : Claims.ReadsAgree .encode s { u with inSize := s.inSize, outSize := s.outSize } :=
      ⟨hkey.symm, hlen.symm, rfl, rfl, fun p hp => (hin p hp).symm⟩
    rw [hL]
    exact ⟨rfl, rfl, fun _ => ⟨(encodeResult_csum_congr hr _).symm, rfl, (encodeResult_blkbuf_congr hr _).symm,
      fun a ha => (memRead_encodeResult_congr hr hs hu ha).symm⟩⟩

/-! ## The host's loop of primitive commands (R114) -/

theorem hostStep_cmd (i : Instr) (s : State) : hostStep (cmd i) s = exec i s :=
  (hostStep_wr_cmd _ s).trans (issueCommand_of_decode (decode_encode i) s)

theorem loopLines_succ (n : Nat) : loopLines (n + 1) = loopLines n ++ blockLines n := by
  simp [loopLines, List.range_succ]

theorem length_loopLines (n : Nat) : (loopLines n).length = 5 * n := by
  induction n with
  | zero => rfl
  | succ n ih => rw [loopLines_succ, List.length_append, ih, blockLines]; rfl

theorem length_primitiveSequence (n : Nat) : (primitiveSequence n).length = 5 * n + 2 := by
  simp [primitiveSequence, length_loopLines]

/-- s after a command that ended with OK, with other values in what the host's loop writes. -/
def loopState (s : State) (csum : Word) (out : Memory) (idx : Word) (buf : Block) : State :=
  finish { s with csum := csum, outMem := out, blkidx := idx, blkbuf := buf }

/-- What ENCODE leaves, but for OUTLEN, which the loop does not write (R112, R114). -/
theorem loopState_eq_encodeResult (s : State) (n : Nat) :
    loopState s (encodeAcc s.inMem (lenOf s) s.key n)
        (storeHeader (encodePayload s.inMem (lenOf s) s.key s.outMem n) s.key (encodeAcc s.inMem (lenOf s) s.key n))
        (BitVec.ofNat 32 (n - 1)) (payloadBlock s.inMem (lenOf s) s.key (n - 1)) =
      { finish (encodeResult s n) with outlen := s.outlen } := rfl

section Loop

variable {s : State} {n : Nat} (csum idx : Word) (out : Memory) (buf : Block)

theorem idxOf_loopState (hv : ValidLen (lenOf s)) (hn : n < nblk (lenOf s)) :
    idxOf (loopState s csum out (BitVec.ofNat 32 n) buf) = n :=
  toNat_blockIndex hv hn

theorem not_namesNoBlock_loopState (hv : ValidLen (lenOf s)) (hn : n < nblk (lenOf s)) :
    ¬ NamesNoBlock (loopState s csum out (BitVec.ofNat 32 n) buf) :=
  not_namesNoBlock_iff.2 ⟨hv, (idxOf_loopState csum out buf hv hn).trans_lt hn⟩

theorem exec_csumInit_loopState : exec .csumInit s = .next (loopState s Config.csumSeed s.outMem s.blkidx s.blkbuf) :=
  execCsumInit_eq s

theorem hostStep_wr_blkidx_loopState (v : Word) :
    hostStep (wr .blkidx v) (loopState s csum out idx buf) = .next (loopState s csum out v buf) :=
  hostStep_write_of_regAt (regAt_regOffset .blkidx) v _

theorem exec_blkLoad_loopState (hv : ValidLen (lenOf s)) (hin : lenOf s ≤ s.inSize) (hn : n < nblk (lenOf s)) :
    exec .blkLoad (loopState s csum out (BitVec.ofNat 32 n) buf) =
      .next (loopState s csum out (BitVec.ofNat 32 n) (paddedBlock s.inMem (lenOf s) n)) := by
  have hload := execBlkLoad_of_backed (not_namesNoBlock_loopState csum out buf hv hn) ((Nat.min_le_left ..).trans hin)
  rwa [idxOf_loopState csum out buf hv hn] at hload

theorem exec_blkXform_loopState :
    exec .blkXform (loopState s csum out idx buf) = .next (loopState s csum out idx (transform buf idx s.key)) :=
  execBlkXform_eq _

theorem exec_csumUpd_loopState :
    exec .csumUpd (loopState s csum out idx buf) = .next (loopState s (fold csum buf) out idx buf) :=
  execCsumUpd_eq _

theorem exec_blkStore_loopState (hv : ValidLen (lenOf s)) (hout : Config.hdrLen + padLen (lenOf s) ≤ s.outSize)
    (hn : n < nblk (lenOf s)) :
    exec .blkStore (loopState s csum out (BitVec.ofNat 32 n) buf) =
      .next (loopState s csum (storeBlock out n buf) (BitVec.ofNat 32 n) buf) := by
  have hidx := idxOf_loopState csum out buf hv hn
  have hend : payloadOffset (n + 1) ≤ Config.hdrLen + padLen (lenOf s) :=
    Nat.add_le_add_left (Nat.mul_le_mul_left _ hn) _
  have hstore := execBlkStore_of_backed (not_namesNoBlock_loopState csum out buf hv hn) (hidx.symm ▸ hend.trans hout)
  rwa [hidx] at hstore

theorem exec_hdrWrite_loopState (hout : Config.hdrLen ≤ s.outSize) :
    exec .hdrWrite (loopState s csum out idx buf) = .next (loopState s csum (storeHeader out s.key csum) idx buf) :=
  execHdrWrite_of_backed (s := loopState s csum out idx buf) hout

/-- The loop body for block n does to CSUM and OUT what ENCODE does for it. -/
theorem foldl_blockLines (hv : ValidLen (lenOf s)) (hb : EncodeBacked s) (hn : n < nblk (lenOf s)) :
    (blockLines n).foldl applyAction
        (.next (loopState s (encodeAcc s.inMem (lenOf s) s.key n) (encodePayload s.inMem (lenOf s) s.key s.outMem n)
          idx buf)) =
      .next (loopState s (encodeAcc s.inMem (lenOf s) s.key (n + 1))
        (encodePayload s.inMem (lenOf s) s.key s.outMem (n + 1)) (BitVec.ofNat 32 n)
        (payloadBlock s.inMem (lenOf s) s.key n)) := by
  simp only [blockLines, List.foldl_cons, List.foldl_nil, applyAction, hostStep_cmd, hostStep_wr_blkidx_loopState,
    exec_blkLoad_loopState _ _ _ hv hb.1 hn, exec_blkXform_loopState, exec_csumUpd_loopState,
    exec_blkStore_loopState _ _ _ hv hb.2 hn, encodeAcc, encodePayload, payloadBlock]

/-- The loop over the blocks 0 .. n. -/
theorem foldl_loopLines_succ (hv : ValidLen (lenOf s)) (hb : EncodeBacked s) (hn : n < nblk (lenOf s)) :
    (loopLines (n + 1)).foldl applyAction (.next (loopState s Config.csumSeed s.outMem s.blkidx s.blkbuf)) =
      .next (loopState s (encodeAcc s.inMem (lenOf s) s.key (n + 1))
        (encodePayload s.inMem (lenOf s) s.key s.outMem (n + 1)) (BitVec.ofNat 32 n)
        (payloadBlock s.inMem (lenOf s) s.key n)) := by
  induction n with
  | zero => exact foldl_blockLines _ _ hv hb hn
  | succ n ih => rw [loopLines_succ, List.foldl_append, ih (Nat.lt_of_succ_lt hn), foldl_blockLines _ _ hv hb hn]

/-- The host's program leaves what ENCODE leaves, but for OUTLEN (R114). -/
theorem foldl_primitiveSequence (hv : ValidLen (lenOf s)) (hb : EncodeBacked s) :
    (primitiveSequence (nblk (lenOf s))).foldl applyAction (.next s) =
      .next { finish (encodeResult s (nblk (lenOf s))) with outlen := s.outlen } := by
  obtain ⟨n, hn⟩ : ∃ n, nblk (lenOf s) = n + 1 := Nat.exists_eq_succ_of_ne_zero (Nat.ne_of_gt (nblk_bounds hv).1)
  have hsize : Config.hdrLen ≤ s.outSize := (Nat.le_add_right ..).trans hb.2
  rw [primitiveSequence, List.foldl_cons, applyAction, hostStep_cmd, exec_csumInit_loopState, List.foldl_append, hn,
    foldl_loopLines_succ hv hb (by omega), List.foldl_cons, List.foldl_nil, applyAction, hostStep_cmd,
    exec_hdrWrite_loopState _ _ _ _ hsize, ← loopState_eq_encodeResult, Nat.add_sub_cancel]

end Loop

/-- Settles O27: the run applies the host's lines one after another. -/
theorem encodeEqualsThePrimitiveSequence : Obligations.EncodeEqualsThePrimitiveSequence := by
  intro s rest hv hb
  refine ⟨_, execEncode_of_backed (s := { s with pending := rest }) hv hb, ?_⟩
  rw [← length_primitiveSequence, run_append_eq_foldl]
  exact foldl_primitiveSequence (s := { s with pending := rest }) hv hb

end Sys2Proof.Machine

/-! The exceptions family (60_exceptions.md): when a command raises InvalidInput, what state an error leaves, and the same
command issued again from that state. -/

namespace Sys2Proof.Machine

/-! ## InvalidInput: its causes and the state it leaves (R131, R135) -/

/-- The tests that raise InvalidInput, command by command (R131). -/
def InputInvalid (i : Instr) (s : State) : Prop :=
  match i with
  | .blkLoad | .blkStore => NamesNoBlock s
  | .encode => ¬ ValidLen (lenOf s)
  | .csumInit | .csumUpd | .blkXform | .hdrWrite => False

/-- The state InvalidInput leaves: RESULT is written, and OUTLEN by ENCODE alone (R113, R135). -/
def invalidInputState (i : Instr) (s : State) : State :=
  raise .invalidInput { s with outlen := if i = .encode then 0#32 else s.outlen }

section InvalidInput

variable {i : Instr} {s t : State}

/-- The causes in the words of R131. -/
theorem inputInvalid_iff : InputInvalid i s ↔
    ((i = .blkLoad ∨ i = .blkStore ∨ i = .encode) ∧ (lenOf s = 0 ∨ 0xFFFFF800 < lenOf s)) ∨
    ((i = .blkLoad ∨ i = .blkStore) ∧ nblk (lenOf s) ≤ idxOf s) := by
  rw [← not_validLen_iff]
  cases i with
  | blkLoad | blkStore => simp [InputInvalid, NamesNoBlock]
  | encode => simp [InputInvalid]
  | csumInit | csumUpd | blkXform | hdrWrite => simp [InputInvalid]

theorem exec_of_inputInvalid (h : InputInvalid i s) : exec i s = .next (invalidInputState i s) := by
  cases i with
  | blkLoad => exact execBlkLoad_raises h
  | blkStore => exact execBlkStore_raises h
  | encode => exact execEncode_raises h
  | csumInit | csumUpd | blkXform | hdrWrite => exact h.elim

/-- A command whose test does not raise ends with OK (R19). -/
theorem result_of_not_inputInvalid (h : exec i s = .next t) (hv : ¬ InputInvalid i s) : t.result = 0#4 := by
  cases i with
  | csumInit =>
    obtain rfl := Host.Outcome.next.inj ((execCsumInit_eq s).symm.trans h)
    rfl
  | csumUpd =>
    obtain rfl := Host.Outcome.next.inj ((execCsumUpd_eq s).symm.trans h)
    rfl
  | blkXform =>
    obtain rfl := Host.Outcome.next.inj ((execBlkXform_eq s).symm.trans h)
    rfl
  | blkLoad =>
    obtain ⟨hn, -⟩ | ⟨-, -, rfl⟩ := execBlkLoad_cases h
    · exact absurd hn hv
    · rfl
  | blkStore =>
    obtain ⟨hn, -⟩ | ⟨-, -, rfl⟩ := execBlkStore_cases h
    · exact absurd hn hv
    · rfl
  | hdrWrite =>
    obtain ⟨-, rfl⟩ := execHdrWrite_cases h
    rfl
  | encode =>
    obtain ⟨hn, -⟩ | ⟨-, -, rfl⟩ := execEncode_cases h
    · exact absurd hn hv
    · rfl

/-- How a command that completes ends (R19, R131, R135). -/
theorem exec_cases (h : exec i s = .next t) :
    (InputInvalid i s ∧ t = invalidInputState i s) ∨ (¬ InputInvalid i s ∧ t.result = 0#4) := by
  by_cases hv : InputInvalid i s
  · exact .inl ⟨hv, Host.Outcome.next.inj (h.symm.trans (exec_of_inputInvalid hv))⟩
  · exact .inr ⟨hv, result_of_not_inputInvalid h hv⟩

/-- The error leaves LEN and BLKIDX, so its cause is still there after it (R136). -/
theorem InputInvalid.after_error (h : InputInvalid i s) : InputInvalid i (invalidInputState i s) := by
  cases i with
  | _ => exact h

/-- A second write of the same code, and of OUTLEN 0, changes nothing. -/
theorem invalidInputState_idem (i : Instr) (s : State) :
    invalidInputState i (invalidInputState i s) = invalidInputState i s := by
  cases i with
  | _ => rfl

end InvalidInput

/-! ## A write to CMD that ends in an error (R133, R135) -/

theorem encode_eq_encode_word_iff {i : Instr} : encode i = 0x0000002F#32 ↔ i = .encode := by
  cases i with
  | _ => decide

theorem issueCommand_error_cases {w : Word} {s t : State} (h : issueCommand w s = .next t) (hr : t.result ≠ 0#4) :
    (∃ i, decode w = .ok i ∧ InputInvalid i s ∧ t = invalidInputState i s) ∨
    (∃ e, decode w = .error e) ∧ t = raise .illegalCommand s := by
  obtain ⟨i, hd, he⟩ | hillegal := issueCommand_cases h
  · obtain ⟨hv, rfl⟩ | ⟨-, hok⟩ := exec_cases he
    · exact .inl ⟨i, hd, hv, rfl⟩
    · exact absurd hok hr
  · exact .inr hillegal

/-! ## The obligations of the family -/

/-- Settles O5: the pending write issues its word, which decodes to no command. -/
theorem illegalWordRaisesIllegalCommand : Obligations.IllegalWordRaisesIllegalCommand := by
  intro s w rest hp hw
  obtain ⟨e, he⟩ := decode_eq_error_of_notMem hw
  calc step s = hostStep (wr .cmd w) { s with pending := rest } := step_of_pending hp
    _ = issueCommand w { s with pending := rest } := hostStep_wr_cmd w _
    _ = .next (raise .illegalCommand { s with pending := rest }) := issueCommand_of_illegal he _

/-- Settles O33: a command ends with code 1 by its input test, and with code 0 when the test does not raise. -/
theorem invalidInputExactlyWhen : Obligations.InvalidInputExactlyWhen := by
  intro i s t h
  rw [← inputInvalid_iff]
  obtain ⟨hv, rfl⟩ | ⟨hv, hok⟩ := exec_cases h
  · have hcode : (invalidInputState i s).result = 1#4 := rfl
    exact ⟨.inr hcode, iff_of_true hcode hv⟩
  · exact ⟨.inl hok, iff_of_false (by rw [hok]; decide) hv⟩

/-- Settles O34: each of the two errors is one raise, and only ENCODE's InvalidInput also writes OUTLEN. -/
theorem errorEntryIsPrecise : Obligations.ErrorEntryIsPrecise := by
  intro w s t h hr
  obtain ⟨i, hd, -, rfl⟩ | ⟨⟨e, he⟩, rfl⟩ := issueCommand_error_cases h hr
  · simp only [eq_encode_of_decode hd, encode_eq_encode_word_iff]
    rfl
  · have hne : w ≠ 0x0000002F#32 := by
      rintro rfl
      cases he.symm.trans (decode_encode .encode)
    rw [if_neg hne]
    rfl

/-- Settles O35: the error leaves its cause in place, and writing its code again changes nothing. -/
theorem reissuedCommandRaisesAgain : Obligations.ReissuedCommandRaisesAgain := by
  intro w s t h hr
  obtain ⟨i, hd, hv, rfl⟩ | ⟨⟨e, he⟩, rfl⟩ := issueCommand_error_cases h hr
  · rw [issueCommand_of_decode hd, exec_of_inputInvalid hv.after_error, invalidInputState_idem]
  · exact issueCommand_of_illegal he _

end Sys2Proof.Machine

/-! The reset family (70_reset_and_hazards.md): the commands issued right after reset. -/

namespace Sys2Proof.Machine

/-- Bytes written at consecutive addresses are read back there. -/
theorem memReadBytes_memWriteBytes_same (m : Memory) (x : Nat) (bs : List Byte) (hm : Memory.wf m) :
    memReadBytes (memWriteBytes m x bs) x bs.length = bs := by
  rw [memReadBytes_eq_map]
  refine List.ext_getElem (by simp) fun j _ hj => ?_
  have hread : memRead (memWriteBytes m x bs) (x + j) = bs[j] := by
    rw [memRead_memWriteBytes _ _ _ _ hm, if_pos (by omega), Nat.add_sub_cancel_left, List.getD_eq_getElem _ _ hj]
  rw [List.getElem_map, List.getElem_range, hread]

/-- OUT[0 .. 12) after a header is stored there (R110). -/
theorem memReadBytes_storeHeader (m : Memory) (key csum : Word) (hm : Memory.wf m) :
    memReadBytes (storeHeader m key csum) 0 12 = headerBytes key csum :=
  memReadBytes_memWriteBytes_same m 0 (headerBytes key csum) hm

/-- Settles O45: after reset LEN is 0, so ENCODE raises; OUT is empty, and HDR.WRITE stores there the header of the seed
under the key 0. -/
theorem resetStateIsUsable : Obligations.ResetStateIsUsable := by
  obtain ⟨-, hout⟩ := reset_memories_wf
  have hlen : ¬ ValidLen (lenOf State.reset) := not_validLen_iff.2 (.inl rfl)
  refine ⟨rfl, execEncode_raises hlen, exec_csumUpd State.reset, fun n hsize => ?_⟩
  refine ⟨_, execHdrWrite_of_backed hsize, rfl, ?_⟩
  exact (memReadBytes_storeHeader _ _ _ hout).trans (headerBytes_csumSeed 0#32)

end Sys2Proof.Machine
